-- ==== Sys2Proof/Word.lean ====
section
/-! DEFINITION. The words of the drisa CORE (spec/00_scope.md R6, R10): 32-bit registers and addresses, 16-bit instruction
words, 8-bit memory elements, and the 4-bit register index. -/

namespace Sys2Proof

/-- A register value or an address: 32 bits, unsigned, arithmetic modulo 2^32 (R6, R10, R30). -/
abbrev Word := BitVec 32

/-- An instruction word: 16 bits (R6, R51). -/
abbrev HalfWord := BitVec 16

/-- A memory element: 8 bits (R6, R10). -/
abbrev Byte := BitVec 8

/-- The index of a general register, 0..15 (R13). -/
abbrev Reg := Fin 16

end Sys2Proof
end

