-- ==== Sys2Proof/Config.lean ====
section
/-! DEFINITION. What an implementation fixes (the parameters of spec/00_scope.md R6) and the free values. -/

namespace Sys2Proof

/-- FLAG_MODE (R6, R18, R75): which instructions write the flags.  OPEN in the spec (D10). -/
inductive FlagMode where
  /-- No instruction writes a flag: the reference behaviour. -/
  | none
  /-- Ops 0, 1, 13 and 14 write all four flags. -/
  | arith
  deriving DecidableEq, Repr

/-- SHIFT_SELECT (R6, R84): where the kind of a shift comes from.  OPEN in the spec (D12). -/
inductive ShiftSelect where
  /-- The value of x[0] or x[2]: the reference behaviour. -/
  | register
  /-- Bits 14:13 of the instruction word. -/
  | instruction
  deriving DecidableEq, Repr

/-- SAR_FILL (R6, R87): the mask of the arithmetic right shift. -/
inductive SarFill where
  /-- 0xFFFFFFFF, the value the spec takes (D15). -/
  | width32
  /-- 0x0000FFFF, the source's literal (C4). -/
  | literal16
  deriving DecidableEq, Repr

/-- The implementation parameters of R6, as R29 lists them under `Configuration`. -/
structure Config where
  /-- MEM_SIZE, in bytes (R31). -/
  memSize : Nat
  /-- FLAG_MODE. -/
  flagMode : FlagMode
  /-- SHIFT_SELECT. -/
  shiftSelect : ShiftSelect
  /-- SAR_FILL. -/
  sarFill : SarFill
  /-- DISPLAY_INIT: the 25 display cells before the first write (R23). -/
  displayInit : Vector Byte 25
  deriving DecidableEq, Repr

/-- The legal range of MEM_SIZE: 0xFF20 ≤ MEM_SIZE ≤ 2^32 (R31, D6). -/
abbrev Config.Legal (c : Config) : Prop := 0xFF20 ≤ c.memSize ∧ c.memSize ≤ 2 ^ 32

/-- The configuration `State.reset` starts in: the values the spec takes for MEM_SIZE and SAR_FILL, and for the three
OPEN parameters the reference behaviour (FLAG_MODE, SHIFT_SELECT) and zeros (DISPLAY_INIT).
DESIGN CHOICE (log 1, log 2), unsafe where a claim speaks of `State.reset` alone. -/
def Config.reference : Config where
  memSize := 65536
  flagMode := .none
  shiftSelect := .register
  sarFill := .width32
  displayInit := Vector.replicate 25 0

/-- FREE VALUE (U12, R37, R45; log 3): the 4-bit value the input device answers at the n-th draw.  It has no body. -/
opaque Config.inputDraw : Nat → BitVec 4

/-- FREE VALUE (U4, R86; log 4): what x[d] holds after a shift of an unknown kind, of which the spec claims nothing.
It has no body. -/
opaque Config.unclaimedShift : Nat → Word

end Sys2Proof
end

