-- ==== Sys2Proof/Syntax.lean ====
section
/-! DEFINITION. The instructions of spec/opcode_table.json, one constructor a row (spec/30_encoding.md R57), the condition
names of R66, and the pseudo-instructions of R67. -/

namespace Sys2Proof

/-- The sixteen 4-bit condition codes by the names of R66, in the order of their codes 0..15. -/
inductive Cond where
  | f | t | ne | eq | pl | mi | cc | cs | vc | vs | c10 | c11 | lt | ge | c14 | c15
  deriving DecidableEq, Repr

/-- One instruction.  The operands are those of its row of the opcode table, in the order of the syntax of R65. -/
inductive Instr where
  /-- Op 0, R77: `ADD rd, rs1, rs2`. -/
  | add (d s1 s2 : Reg)
  /-- Op 1, R78: `SUB rd, rs1, rs2`. -/
  | sub (d s1 s2 : Reg)
  /-- Op 2, R79: `AND rd, rs1, rs2`. -/
  | and (d s1 s2 : Reg)
  /-- Op 3, R80: `OR rd, rs1, rs2`. -/
  | or (d s1 s2 : Reg)
  /-- Op 4, R81: `XOR rd, rs1, rs2`. -/
  | xor (d s1 s2 : Reg)
  /-- Op 5 with word[15] = 0, R88: `SHIFTI rd, #imm, sel`. -/
  | shifti (d : Reg) (imm : BitVec 5) (sel : BitVec 2)
  /-- Op 5 with word[15] = 1, R89: `SHIFTR rd, rs1, sel`. -/
  | shiftr (d s1 : Reg) (sel : BitVec 2)
  /-- Op 6, R93: `LDn rd, (rs1)`, or `LDnS` with `k` set; `n` bytes, 1..4. -/
  | ldn (d s1 : Reg) (n : Nat) (k : Bool)
  /-- Op 7, R95: `STn (rd), rs1`, or `STnS` with `k` set; `n` bytes, 1..4. -/
  | stn (d s1 : Reg) (n : Nat) (k : Bool)
  /-- Op 8, R104: `CADD.cc rd, rs1`. -/
  | cadd (d s1 : Reg) (cond : Cond)
  /-- Op 9, R105: `CSUB.cc rd, rs1`. -/
  | csub (d s1 : Reg) (cond : Cond)
  /-- Op 10, R106: `CAND.cc rd, rs1`. -/
  | cand (d s1 : Reg) (cond : Cond)
  /-- Op 11, R107: `COR.cc rd, rs1`. -/
  | cor (d s1 : Reg) (cond : Cond)
  /-- Op 12, R108: `CXOR.cc rd, rs1`. -/
  | cxor (d s1 : Reg) (cond : Cond)
  /-- Op 13, R114: `ADDS rd, rs1, rs2`. -/
  | adds (d s1 s2 : Reg)
  /-- Op 14, R115: `SUBS rd, rs1, rs2`. -/
  | subs (d s1 s2 : Reg)
  /-- Op 15, R118: `RSV #imm12`; the operand is ignored. -/
  | rsv (imm12 : BitVec 12)
  deriving DecidableEq, Repr

/-! Pseudo-instructions and their expansions (R67). -/

/-- `NOP`. -/
def Instr.nop : Instr := .rsv 0
/-- `MOV rd, rs`. -/
def Instr.mov (d s : Reg) : Instr := .or d s s
/-- `CLR rd`. -/
def Instr.clr (d : Reg) : Instr := .xor d d d
/-- `GETPC rd`. -/
def Instr.getpc (d : Reg) : Instr := .or d 0 0
/-- `JMP rs`. -/
def Instr.jmp (s : Reg) : Instr := .or 0 s s
/-- `JREL rs`. -/
def Instr.jrel (s : Reg) : Instr := .add 0 0 s
/-- `BR.cc rs`. -/
def Instr.br (c : Cond) (s : Reg) : Instr := .cadd 0 s c
/-- `SHLI rd, #a`, meaningful with SHIFT_SELECT = `instruction`. -/
def Instr.shli (d : Reg) (a : BitVec 5) : Instr := .shifti d a 0
/-- `SRLI rd, #a`, meaningful with SHIFT_SELECT = `instruction`. -/
def Instr.srli (d : Reg) (a : BitVec 5) : Instr := .shifti d a 1
/-- `SRAI rd, #a`, meaningful with SHIFT_SELECT = `instruction`. -/
def Instr.srai (d : Reg) (a : BitVec 5) : Instr := .shifti d a 2

end Sys2Proof
end

