-- ==== Sys2Proof/WellFormed.lean ====
section
/-! DEFINITION. Which terms of `Instr` are instructions of the machine.  The types bound every operand but the byte count
of a load or a store, which R54 and R91 put in 1..4. -/

namespace Sys2Proof

/-- A byte count that the field word[15:14] can hold: word[15:14] + 1 (R54, R91). -/
abbrev ByteCount (n : Nat) : Prop := 1 ≤ n ∧ n ≤ 4

/-- The well-formed instructions: exactly those some instruction word decodes to (R53, R63). -/
def Instr.WellFormed : Instr → Bool
  | .ldn _ _ n _ => decide (ByteCount n)
  | .stn _ _ n _ => decide (ByteCount n)
  | .add _ _ _ => true
  | .sub _ _ _ => true
  | .and _ _ _ => true
  | .or _ _ _ => true
  | .xor _ _ _ => true
  | .shifti _ _ _ => true
  | .shiftr _ _ _ => true
  | .cadd _ _ _ => true
  | .csub _ _ _ => true
  | .cand _ _ _ => true
  | .cor _ _ _ => true
  | .cxor _ _ _ => true
  | .adds _ _ _ => true
  | .subs _ _ _ => true
  | .rsv _ => true

end Sys2Proof
end

