-- ==== Sys2Proof/Decode.lean ====
section
/-! DEFINITION. The decoder DEC and its inverse (spec/30_encoding.md R51 to R57, R60, R63, R64): the fields of the
instruction word, the decoder, the encoder, the ignored bits and the length in the instruction stream. -/

namespace Sys2Proof

/-! The fields of the instruction word (R52, R54). -/

/-- op = word[3:0]. -/
def opField (w : HalfWord) : BitVec 4 := w.extractLsb' 0 4
/-- d = word[7:4]. -/
def dField (w : HalfWord) : Reg := (w.extractLsb' 4 4).toFin
/-- s1 = word[11:8]. -/
def s1Field (w : HalfWord) : Reg := (w.extractLsb' 8 4).toFin
/-- s2 = word[15:12] of formats R. -/
def s2Field (w : HalfWord) : Reg := (w.extractLsb' 12 4).toFin
/-- cond = word[15:12] of format C. -/
def condField (w : HalfWord) : BitVec 4 := w.extractLsb' 12 4
/-- imm = word[12:8] of format SI. -/
def immField (w : HalfWord) : BitVec 5 := w.extractLsb' 8 5
/-- sel = word[14:13] of formats SI and SR. -/
def selField (w : HalfWord) : BitVec 2 := w.extractLsb' 13 2
/-- n = word[15:14] + 1 of format M. -/
def countField (w : HalfWord) : Nat := (w.extractLsb' 14 2).toNat + 1
/-- k = word[13] of format M. -/
def skipField (w : HalfWord) : Bool := w.getLsbD 13
/-- The shift mode, word[15]: set for a register amount. -/
def modeField (w : HalfWord) : Bool := w.getLsbD 15
/-- word[15:4] of format X. -/
def rsvField (w : HalfWord) : BitVec 12 := w.extractLsb' 4 12

/-- The 4-bit code of a condition (R66). -/
def Cond.code : Cond → BitVec 4
  | .f => 0 | .t => 1 | .ne => 2 | .eq => 3 | .pl => 4 | .mi => 5 | .cc => 6 | .cs => 7
  | .vc => 8 | .vs => 9 | .c10 => 10 | .c11 => 11 | .lt => 12 | .ge => 13 | .c14 => 14 | .c15 => 15

/-- The condition of a 4-bit code (R66). -/
def Cond.ofCode (c : BitVec 4) : Cond :=
  match c.toNat with
  | 0 => .f | 1 => .t | 2 => .ne | 3 => .eq | 4 => .pl | 5 => .mi | 6 => .cc | 7 => .cs
  | 8 => .vc | 9 => .vs | 10 => .c10 | 11 => .c11 | 12 => .lt | 13 => .ge | 14 => .c14 | _ => .c15

/-- DEC: the instruction of a word (R57, R60).  It is total: every word is an instruction (R63). -/
def decodeWord (w : HalfWord) : Instr :=
  match (opField w).toNat with
  | 0 => .add (dField w) (s1Field w) (s2Field w)
  | 1 => .sub (dField w) (s1Field w) (s2Field w)
  | 2 => .and (dField w) (s1Field w) (s2Field w)
  | 3 => .or (dField w) (s1Field w) (s2Field w)
  | 4 => .xor (dField w) (s1Field w) (s2Field w)
  | 5 =>
    if modeField w then .shiftr (dField w) (s1Field w) (selField w)
    else .shifti (dField w) (immField w) (selField w)
  | 6 => .ldn (dField w) (s1Field w) (countField w) (skipField w)
  | 7 => .stn (dField w) (s1Field w) (countField w) (skipField w)
  | 8 => .cadd (dField w) (s1Field w) (Cond.ofCode (condField w))
  | 9 => .csub (dField w) (s1Field w) (Cond.ofCode (condField w))
  | 10 => .cand (dField w) (s1Field w) (Cond.ofCode (condField w))
  | 11 => .cor (dField w) (s1Field w) (Cond.ofCode (condField w))
  | 12 => .cxor (dField w) (s1Field w) (Cond.ofCode (condField w))
  | 13 => .adds (dField w) (s1Field w) (s2Field w)
  | 14 => .subs (dField w) (s1Field w) (s2Field w)
  | _ => .rsv (rsvField w)

/-- The word of two bytes of memory, the byte at the lower address first: little-endian (R58). -/
def wordOfBytes (lo hi : Byte) : HalfWord := hi ++ lo

/-- Why a byte sequence is no instruction. -/
inductive DecodeError where
  /-- Fewer than the two bytes of an instruction word are there (R51). -/
  | truncated
  deriving DecidableEq, Repr

/-- Decode the instruction at the head of a byte sequence, and the bytes after it. -/
def decode : List Byte → Except DecodeError (Instr × List Byte)
  | lo :: hi :: rest => .ok (decodeWord (wordOfBytes lo hi), rest)
  | _ => .error .truncated

/-- The low and the high byte of an instruction word, in memory order (R58). -/
def bytesOfWord (w : HalfWord) : List Byte := [w.extractLsb' 0 8, w.extractLsb' 8 8]

/-- What the decoder reads from an instruction of `nbits` bits `w`, bit 0 the least significant bit of the first byte. -/
def decodeTableWord (nbits w : Nat) : Option Instr :=
  match decode (bytesOfWord (BitVec.ofNat 16 (w % 2 ^ nbits))) with
  | .ok (i, _) => some i
  | .error _ => none

/-! The encoder, from the format table of R53 and the encoding each instruction's rule writes out. -/

/-- A field's bits at position `lsb` of an instruction word. -/
def place {n : Nat} (field : BitVec n) (lsb : Nat) : HalfWord := field.setWidth 16 <<< lsb

/-- A register index as a 4-bit field. -/
def Reg.field (r : Reg) : BitVec 4 := BitVec.ofFin r

/-- Format R: s2<<12 | s1<<8 | d<<4 | op. -/
def encodeR (s2 s1 d : Reg) (op : BitVec 4) : HalfWord :=
  place (Reg.field s2) 12 ||| place (Reg.field s1) 8 ||| place (Reg.field d) 4 ||| place op 0

/-- Format SI: sel<<13 | imm<<8 | d<<4 | 0x5, with word[15] = 0 (R88). -/
def encodeSI (sel : BitVec 2) (imm : BitVec 5) (d : Reg) : HalfWord :=
  place sel 13 ||| place imm 8 ||| place (Reg.field d) 4 ||| place 5#4 0

/-- Format SR: 0x8000 | sel<<13 | s1<<8 | d<<4 | 0x5, the ignored bit 12 written 0 (R89). -/
def encodeSR (sel : BitVec 2) (s1 d : Reg) : HalfWord :=
  place 1#1 15 ||| place sel 13 ||| place (Reg.field s1) 8 ||| place (Reg.field d) 4 ||| place 5#4 0

/-- Format M: (n−1)<<14 | k<<13 | s1<<8 | d<<4 | op, the ignored bit 12 written 0 (R93, R95). -/
def encodeM (n : Nat) (k : Bool) (s1 d : Reg) (op : BitVec 4) : HalfWord :=
  place (BitVec.ofNat 2 (n - 1)) 14 ||| place (BitVec.ofBool k) 13 ||| place (Reg.field s1) 8 |||
    place (Reg.field d) 4 ||| place op 0

/-- Format C: cond<<12 | s1<<8 | d<<4 | op. -/
def encodeC (c : Cond) (s1 d : Reg) (op : BitVec 4) : HalfWord :=
  place c.code 12 ||| place (Reg.field s1) 8 ||| place (Reg.field d) 4 ||| place op 0

/-- Format X: imm12<<4 | 0xF (R118). -/
def encodeX (imm12 : BitVec 12) : HalfWord := place imm12 4 ||| place 15#4 0

/-- The word of a well-formed instruction (R53, R57).  Ignored bits are 0, as the assembler of R67 writes them (R56). -/
def encode : Instr → HalfWord
  | .add d s1 s2 => encodeR s2 s1 d 0
  | .sub d s1 s2 => encodeR s2 s1 d 1
  | .and d s1 s2 => encodeR s2 s1 d 2
  | .or d s1 s2 => encodeR s2 s1 d 3
  | .xor d s1 s2 => encodeR s2 s1 d 4
  | .shifti d imm sel => encodeSI sel imm d
  | .shiftr d s1 sel => encodeSR sel s1 d
  | .ldn d s1 n k => encodeM n k s1 d 6
  | .stn d s1 n k => encodeM n k s1 d 7
  | .cadd d s1 c => encodeC c s1 d 8
  | .csub d s1 c => encodeC c s1 d 9
  | .cand d s1 c => encodeC c s1 d 10
  | .cor d s1 c => encodeC c s1 d 11
  | .cxor d s1 c => encodeC c s1 d 12
  | .adds d s1 s2 => encodeR s2 s1 d 13
  | .subs d s1 s2 => encodeR s2 s1 d 14
  | .rsv imm12 => encodeX imm12

/-- The opcode of an instruction (R57). -/
def Instr.opcode : Instr → BitVec 4
  | .add _ _ _ => 0
  | .sub _ _ _ => 1
  | .and _ _ _ => 2
  | .or _ _ _ => 3
  | .xor _ _ _ => 4
  | .shifti _ _ _ => 5
  | .shiftr _ _ _ => 5
  | .ldn _ _ _ _ => 6
  | .stn _ _ _ _ => 7
  | .cadd _ _ _ => 8
  | .csub _ _ _ => 9
  | .cand _ _ _ => 10
  | .cor _ _ _ => 11
  | .cxor _ _ _ => 12
  | .adds _ _ _ => 13
  | .subs _ _ _ => 14
  | .rsv _ => 15

/-- The bits of a word that no rule reads (R56); word[13] of a shift is one of them in `register` mode only. -/
def ignoredBits (mode : ShiftSelect) (w : HalfWord) : HalfWord :=
  match (opField w).toNat with
  | 5 =>
    (if modeField w then 0x1000#16 else 0#16) ||| (match mode with | .register => 0x2000#16 | .instruction => 0#16)
  | 6 => 0x1000#16
  | 7 => 0x1000#16
  | 15 => 0xFFF0#16
  | _ => 0#16

/-- How many bytes of the instruction stream an instruction takes (R64): a load or store with k set skips two more. -/
def Instr.length : Instr → Nat
  | .add _ _ _ => 2
  | .sub _ _ _ => 2
  | .and _ _ _ => 2
  | .or _ _ _ => 2
  | .xor _ _ _ => 2
  | .shifti _ _ _ => 2
  | .shiftr _ _ _ => 2
  | .ldn _ _ _ k => if k then 4 else 2
  | .stn _ _ _ k => if k then 4 else 2
  | .cadd _ _ _ => 2
  | .csub _ _ _ => 2
  | .cand _ _ _ => 2
  | .cor _ _ _ => 2
  | .cxor _ _ _ => 2
  | .adds _ _ _ => 2
  | .subs _ _ _ => 2
  | .rsv _ => 2

/-- R64: the length as a decoder tells it from the first word alone. -/
def streamLength (w : HalfWord) : Nat :=
  if (opField w = 6 ∨ opField w = 7) ∧ skipField w = true then 4 else 2

end Sys2Proof
end

