-- ==== Sys2Proof/Machine/State.lean ====
section
/-! DEFINITION. The state of the CORE: every piece spec/10_state.md R29 lists, as plain data, and its reset value. -/

namespace Sys2Proof.Machine

/-- The two states of LOOP (R21). -/
inductive LoopState where
  | running
  | faulted
  deriving DecidableEq, Repr

/-- The flags ZERO, SIGN, CARRY and OVERFLOW (R18). -/
structure Flags where
  z : Bool
  s : Bool
  c : Bool
  v : Bool
  deriving DecidableEq, Repr

/-- Bytes by address, strictly rising, no byte equal to what an unlisted address reads as. -/
abbrev Memory := List Host.Cell

/-- The state of the machine (R29).  `cfg` holds the parameters of R6, which no step changes (log 1); `draws` is the
model's own counter of the free values taken so far (log 3). -/
@[ext]
structure State where
  /-- MEM_SIZE, FLAG_MODE, SHIFT_SELECT, SAR_FILL and DISPLAY_INIT (R6, R29). -/
  cfg : Config
  /-- x[0]..x[15]; x[0] is the PC (R13, R15). -/
  regs : Vector Word 16
  /-- Z, S, C, V (R18). -/
  flags : Flags
  /-- The sticky fault flag (R19). -/
  fault : Bool
  /-- The sticky bounds-fault flag (R20). -/
  boundsFault : Bool
  /-- The address of the bounds fault (R20). -/
  boundsAddr : Word
  /-- RUNNING or FAULTED (R21). -/
  loop : LoopState
  /-- The visible part of the backing store, addresses 0x0000..0xFEFF (R22). -/
  mem : Memory
  /-- The display cells, index = address − 0xFF00 (R23, R29). -/
  display : Vector Byte 25
  /-- Instructions passed to the executor (R25). -/
  retired : Nat
  /-- The refusal mark (R28). -/
  refused : Bool
  /-- How many free values the run has taken (log 3). -/
  draws : Nat
  deriving DecidableEq, Repr

/-- Why the machine stops with a fault. -/
inductive Fault where
  /-- Raised by `step` in a state whose LOOP is FAULTED: the machine has no step there (R125).  Safe. -/
  | loopFaulted
  deriving DecidableEq, Repr

/-- Why the model gives no further meaning. -/
inductive Refusal where
  /-- Raised by an arm of `exec` for an instruction that has no meaning yet.  Safe. -/
  | notModelled (mnemonic : String)
  /-- Raised by `step` in a state that carries the refusal mark: it takes no further step (R28, R61).  Safe. -/
  | refusalMark
  /-- Raised by `step` in a state whose MEM_SIZE is outside 0xFF20..2^32, which the spec refuses (R31, D6).  Safe. -/
  | illegalMemSize (memSize : Nat)
  deriving DecidableEq, Repr

/-- The state after reset in the configuration `c`, before an image is loaded (R29, R146). -/
def State.resetWith (c : Config) : State where
  cfg := c
  regs := Vector.replicate 16 0
  flags := ⟨false, false, false, false⟩
  fault := false
  boundsFault := false
  boundsAddr := 0
  loop := .running
  mem := []
  display := c.displayInit
  retired := 0
  refused := false
  draws := 0

/-- The state after reset in the configuration `Config.reference` (log 1, log 2). -/
def State.reset : State := State.resetWith Config.reference

end Sys2Proof.Machine
end

