-- ==== Sys2Proof/Machine/Ops.lean ====
section
/-! DEFINITION. The named operations of the machine: registers, memory, the display and the input, the memory multiplexer
MUX (spec/20_memory.md), the fetch (spec/30_encoding.md), and faults and refusals (spec/60_exceptions.md). -/

namespace Sys2Proof.Machine

/-! Registers (R13 to R16). -/

/-- x[r]. -/
def State.readReg (s : State) (r : Reg) : Word := s.regs[r]

/-- x[r] <- v.  No register is hardwired (R14); a write of x[0] sets the address of the next fetch (R15). -/
def State.writeReg (s : State) (r : Reg) (v : Word) : State := { s with regs := s.regs.set r.val v r.isLt }

/-- The PC, x[0] (R15). -/
def State.pc (s : State) : Word := s.readReg 0

/-- x[0] <- x[0] +32 n. -/
def State.addPc (s : State) (n : Word) : State := s.writeReg 0 (s.pc + n)

/-- The free value for the input device's next answer is taken: the counter of draws advances (log 3). -/
def State.nextDraw (s : State) : State := { s with draws := s.draws + 1 }

/-! Plain memory: the visible part of the backing store (R22). -/

/-- What a byte of memory that nothing has written reads as: 0, the reset value of every byte (R29; log 8). -/
def Memory.unlisted : Byte := 0

/-- The byte at an address. -/
def Memory.read : Memory → Nat → Byte
  | [], _ => Memory.unlisted
  | (k, b) :: rest, a => if k = a then b else Memory.read rest a

/-- Put a byte before the rest of a memory, unless it is the byte an unlisted address reads as. -/
def Memory.cons (a : Nat) (b : Byte) (rest : Memory) : Memory := if b = Memory.unlisted then rest else (a, b) :: rest

/-- The memory with the byte at an address replaced, in canonical form again. -/
def Memory.write : Memory → Nat → Byte → Memory
  | [], a, b => Memory.cons a b []
  | (k, c) :: rest, a, b =>
    if a < k then Memory.cons a b ((k, c) :: rest)
    else if a = k then Memory.cons a b rest
    else (k, c) :: Memory.write rest a b

/-- The canonical form: addresses strictly rising, and no byte that an unlisted address reads as. -/
abbrev Memory.wf (m : Memory) : Prop := m.Pairwise (fun p q => p.1 < q.1) ∧ ∀ p ∈ m, p.2 ≠ Memory.unlisted

/-! The display collaborator (R8, R36, R44). -/

/-- The row of the cell at an address of the display range (R36). -/
def cellRow (a : Nat) : Fin 5 := Fin.ofNat 5 ((a - 0xFF00) / 5)

/-- The column of the cell at an address of the display range (R36). -/
def cellColumn (a : Nat) : Fin 5 := Fin.ofNat 5 ((a - 0xFF00) % 5)

/-- The index of a cell, row by row. -/
def cellIndex (row column : Fin 5) : Fin 25 := ⟨row.val * 5 + column.val, by omega⟩

/-- `getPixel(row, col)` (R8, R44). -/
def State.getPixel (s : State) (row column : Fin 5) : Byte := s.display[cellIndex row column]

/-- `setPixel(row, col, value)` (R8, R44). -/
def State.setPixel (s : State) (row column : Fin 5) (b : Byte) : State :=
  { s with display := s.display.set (cellIndex row column).val b (cellIndex row column).isLt }

/-! The input collaborator (R8, R37, R45). -/

/-- `readButtonState()`, zero-extended to a byte: a fresh 4-bit value that nothing constrains (U12; log 3). -/
def State.inputByte (s : State) : Byte := (Config.inputDraw s.draws).setWidth 8

/-! One byte through the multiplexer (R32, R38, R39).  The bound check of R34 is made for every byte of an access before
its first byte (R40, R41, R58): see `memRead`, `memWrite` and `fetch` (log 9). -/

/-- `Read8(a)` at an address inside the address space: the byte, and the state with the input draw it may have taken. -/
def read8 (a : Word) (s : State) : Byte × State :=
  if a.toNat < 0xFF00 then (s.mem.read a.toNat, s)
  else if a.toNat ≤ 0xFF18 then (s.getPixel (cellRow a.toNat) (cellColumn a.toNat), s)
  else if a.toNat ≤ 0xFF1F then (s.inputByte, s.nextDraw)
  else (0, s)

/-- `Write8(a, b)` at an address inside the address space.  A write to the input range has no effect a program can
observe, and the model drops its backing byte and its draw, as R22, R39 and D22 allow (log 6). -/
def write8 (a : Word) (b : Byte) (s : State) : State :=
  if a.toNat < 0xFF00 then { s with mem := s.mem.write a.toNat b }
  else if a.toNat ≤ 0xFF18 then s.setPixel (cellRow a.toNat) (cellColumn a.toNat) b
  else s

/-! Accesses of several bytes (R35, R40, R41). -/

/-- The first of the `n` byte addresses from `a` upward, wrapping modulo 2^32, that lies at or above MEM_SIZE
(R34, R35). -/
def firstOutOfBounds (memSize : Nat) : Nat → Word → Option Word
  | 0, _ => none
  | n + 1, a => if memSize ≤ a.toNat then some a else firstOutOfBounds memSize n (a + 1)

/-- The `n` bytes from `a` upward, read in ascending order and packed little-endian (R40, R42). -/
def readBytes : Nat → Word → State → Word × State
  | 0, _, s => (0, s)
  | n + 1, a, s =>
    let first := read8 a s
    let rest := readBytes n (a + 1) first.2
    (first.1.setWidth 32 ||| rest.1 <<< 8, rest.2)

/-- The `n` low bytes of `v`, written in ascending order from `a` upward (R41, R42). -/
def writeBytes : Nat → Word → Word → State → State
  | 0, _, _, s => s
  | n + 1, a, v, s => writeBytes n (a + 1) (v >>> 8) (write8 a (v.setWidth 8) s)

/-- `MemRead(a, n)` (R40): the address of the first byte out of bounds, or the value and the state after the reads. -/
def memRead (a : Word) (n : Nat) (s : State) : Except Word (Word × State) :=
  match firstOutOfBounds s.cfg.memSize n a with
  | some bad => .error bad
  | none => .ok (readBytes n a s)

/-- `MemWrite(a, n, v)` (R41): the address of the first byte out of bounds, or the state after the writes. -/
def memWrite (a : Word) (n : Nat) (v : Word) (s : State) : Except Word State :=
  match firstOutOfBounds s.cfg.memSize n a with
  | some bad => .error bad
  | none => .ok (writeBytes n a v s)

/-! Fetch and PC advance (R58, R59, R61). -/

/-- `Fetch()` (R58): the address of the first byte out of bounds, or the instruction word and the state after the two
reads, which take a draw each in the input range. -/
def fetch (s : State) : Except Word (HalfWord × State) :=
  match firstOutOfBounds s.cfg.memSize 2 s.pc with
  | some bad => .error bad
  | none =>
    let lo := read8 s.pc s
    let hi := read8 (s.pc + 1) lo.2
    .ok (wordOfBytes lo.1 hi.1, hi.2)

/-- The state an instruction executes in: PCA has advanced x[0] by 2 and the instruction is counted (R25, R59, R61). -/
def advance (s : State) : State := { s.addPc 2 with retired := s.retired + 1 }

/-! Faults and refusals. -/

/-- `raise OutOfBounds(a)` (R130), in the state the fault leaves otherwise (R123): the sticky flag and the address. -/
def raiseOutOfBounds (a : Word) (s : State) : State := { s with boundsFault := true, boundsAddr := a }

/-- InvalidCondition (R101, R120): the sticky fault flag. -/
def raiseInvalidCondition (s : State) : State := { s with fault := true }

/-- `refuse UnknownShiftKind` (R28, R61, R86): the refusal mark.  The spec claims nothing of x[d] then, so x[d] is a free
value (log 4). -/
def refuseShift (d : Reg) (s : State) : State :=
  { (s.writeReg d (Config.unclaimedShift s.draws)).nextDraw with refused := true }

/-- The end of a step (R61, R124): a refusal ends it; else LOOP moves to FAULTED if a fault flag is set.  Nothing is
saved and nothing else changes (R126), and nothing leads back (R125, R127). -/
def endStep (s : State) : State :=
  if s.refused then s else if s.fault || s.boundsFault then { s with loop := .faulted } else s

/-- The signal `faulted`, true exactly in FAULTED (R8, D35). -/
def State.faulted (s : State) : Bool := decide (s.loop = .faulted)

/-- Store an instruction word where the next fetch reads it, for the host's one-instruction questions. -/
def placeWord (w : HalfWord) (s : State) : State := writeBytes 2 s.pc (w.setWidth 32) s

end Sys2Proof.Machine
end

