-- ==== Sys2Proof/Machine/Flags.lean ====
section
/-! DEFINITION. The flag functions of FLAG_MODE = `arith` (spec/40_alu.md R75, R76) and the condition evaluator CCE
(spec/43_conditional.md R101). -/

namespace Sys2Proof.Machine

/-- `FlagsAdd(a, b, r)` (R76): C is the carry out of bit 31, V the signed overflow. -/
def flagsAdd (a b r : Word) : Flags where
  z := decide (r = 0)
  s := r.msb
  c := decide (2 ^ 32 ≤ a.toNat + b.toNat)
  v := (a.msb == b.msb) && (r.msb != a.msb)

/-- `FlagsSub(a, b, r)` (R76): C is the borrow (D11), V the signed overflow. -/
def flagsSub (a b r : Word) : Flags where
  z := decide (r = 0)
  s := r.msb
  c := decide (a.toNat < b.toNat)
  v := (a.msb != b.msb) && (r.msb != a.msb)

/-- Write all four flags if FLAG_MODE = `arith`, none otherwise (R18, R75). -/
def State.updateFlags (s : State) (f : Flags) : State :=
  match s.cfg.flagMode with
  | .none => s
  | .arith => { s with flags := f }

/-- What a condition says of the flags; an invalid code says nothing (R101). -/
def condTest (c : Cond) (f : Flags) : Option Bool :=
  match c with
  | .f => some false
  | .t => some true
  | .ne => some (!f.z)
  | .eq => some f.z
  | .pl => some (!f.s)
  | .mi => some f.s
  | .cc => some (!f.c)
  | .cs => some f.c
  | .vc => some (!f.v)
  | .vs => some f.v
  | .lt => some (f.s != f.v)
  | .ge => some (f.s == f.v)
  | .c10 => none
  | .c11 => none
  | .c14 => none
  | .c15 => none

/-- `CondEval(c)` (R101): the truth value, and the state, in which an invalid code has set `fault`. -/
def condEval (c : Cond) (s : State) : Bool × State :=
  match condTest c s.flags with
  | some b => (b, s)
  | none => (false, raiseInvalidCondition s)

end Sys2Proof.Machine
end

