-- ==== Sys2Proof/Machine/Operands.lean ====
section
/-! DEFINITION. The operand forms and the shared shapes of the instructions: three registers, the shift's amount and kind
(spec/41_shift.md), the skip of loads and stores (spec/42_load_store.md R92), and the conditional update
(spec/43_conditional.md). -/

namespace Sys2Proof.Machine

/-! The shift (R83 to R87). -/

/-- The three kinds of shift (R85). -/
inductive ShiftKind where
  /-- Kind 0: SHL. -/
  | left
  /-- Kind 1: SRL. -/
  | logicalRight
  /-- Kind 2: SAR. -/
  | arithmeticRight
  deriving DecidableEq, Repr

/-- The kind a selector value stands for (R85); any other value has no meaning (R86). -/
def ShiftKind.ofWord (v : Word) : Option ShiftKind :=
  if v = 0 then some .left else if v = 1 then some .logicalRight else if v = 2 then some .arithmeticRight else none

/-- The selector value (R84): x[2·word[14]] or word[14:13].  word[14] is bit 1 of sel. -/
def shiftSelector (sel : BitVec 2) (s : State) : Word :=
  match s.cfg.shiftSelect with
  | .register => s.readReg (if sel.getLsbD 1 then 2 else 0)
  | .instruction => sel.setWidth 32

/-- SHL(v, a) (R87). -/
def shl (v : Word) (a : Nat) : Word := if a < 32 then v <<< a else 0

/-- SRL(v, a) (R87). -/
def srl (v : Word) (a : Nat) : Word := if a < 32 then v >>> a else 0

/-- The mask M of R87. -/
def sarMask (fill : SarFill) : Word :=
  match fill with
  | .width32 => 0xFFFFFFFF
  | .literal16 => 0x0000FFFF

/-- SAR(v, a) (R87). -/
def sar (fill : SarFill) (v : Word) (a : Nat) : Word :=
  if v.msb then srl v a ||| ~~~(srl (sarMask fill) a) else srl v a

/-- The shift of a kind (R88, R89). -/
def shiftBy (fill : SarFill) (kind : ShiftKind) (v : Word) (a : Nat) : Word :=
  match kind with
  | .left => shl v a
  | .logicalRight => srl v a
  | .arithmeticRight => sar fill v a

/-- A shift of x[d] in place by an amount (R88 to R90): an unknown kind is refused (R86). -/
def shiftInPlace (d : Reg) (amount : Nat) (sel : BitVec 2) (s : State) : State :=
  match ShiftKind.ofWord (shiftSelector sel s) with
  | some kind => s.writeReg d (shiftBy s.cfg.sarFill kind (s.readReg d) amount)
  | none => refuseShift d s

/-! Loads and stores (R91 to R99). -/

/-- The skip of inline operand bytes: x[0] <- x[0] +32 2·k (R92). -/
def skip (k : Bool) (s : State) : State := s.addPc (if k then 2 else 0)

/-- The state in which a load reads its base: x[d] is cleared, then the skip is made (steps 1 and 2 of R93). -/
def loadPrepared (d : Reg) (k : Bool) (s : State) : State := skip k (s.writeReg d 0)

/-- The base address of a load: x[s1] after the clear and the skip (step 3 of R93). -/
def loadBase (d s1 : Reg) (k : Bool) (s : State) : Word := (loadPrepared d k s).readReg s1

/-- The base address of a store: x[d] after the skip (R95). -/
def storeBase (d : Reg) (k : Bool) (s : State) : Word := (skip k s).readReg d

/-- The value a store writes: x[s1] after the skip (R95). -/
def storeValue (s1 : Reg) (k : Bool) (s : State) : Word := (skip k s).readReg s1

/-! Conditional operations (R104 to R110). -/

/-- If the condition holds, x[d] <- f x[d] x[s1]; else nothing but what the evaluator did. -/
def conditionally (f : Word → Word → Word) (c : Cond) (d s1 : Reg) (s : State) : State :=
  let t := condEval c s
  if t.1 then t.2.writeReg d (f (t.2.readReg d) (t.2.readReg s1)) else t.2

end Sys2Proof.Machine
end

