-- ==== Sys2Proof/Machine/Alu.lean ====
section
/-! DEFINITION. Ops 0 to 4: register-register arithmetic and logic (spec/40_alu.md). -/

namespace Sys2Proof.Machine

/-- ADD (R77). -/
def execAdd (d s1 s2 : Reg) (s : State) : Host.Outcome State Fault Refusal :=
  let a := s.readReg s1
  let b := s.readReg s2
  .next ((s.writeReg d (a + b)).updateFlags (flagsAdd a b (a + b)))

/-- SUB (R78). -/
def execSub (d s1 s2 : Reg) (s : State) : Host.Outcome State Fault Refusal :=
  let a := s.readReg s1
  let b := s.readReg s2
  .next ((s.writeReg d (a - b)).updateFlags (flagsSub a b (a - b)))

/-- AND (R79). -/
def execAnd (d s1 s2 : Reg) (s : State) : Host.Outcome State Fault Refusal :=
  .next (s.writeReg d (s.readReg s1 &&& s.readReg s2))

/-- OR (R80). -/
def execOr (d s1 s2 : Reg) (s : State) : Host.Outcome State Fault Refusal :=
  .next (s.writeReg d (s.readReg s1 ||| s.readReg s2))

/-- XOR (R81). -/
def execXor (d s1 s2 : Reg) (s : State) : Host.Outcome State Fault Refusal :=
  .next (s.writeReg d (s.readReg s1 ^^^ s.readReg s2))

end Sys2Proof.Machine
end

