-- ==== Sys2Proof/Machine/Conditional.lean ====
section
/-! DEFINITION. Ops 8 to 12: the conditional operations (spec/43_conditional.md). -/

namespace Sys2Proof.Machine

/-- CADD (R104). -/
def execCadd (d s1 : Reg) (c : Cond) (s : State) : Host.Outcome State Fault Refusal :=
  .next (conditionally (fun a b => a + b) c d s1 s)

/-- CSUB (R105). -/
def execCsub (d s1 : Reg) (c : Cond) (s : State) : Host.Outcome State Fault Refusal :=
  .next (conditionally (fun a b => a - b) c d s1 s)

/-- CAND (R106). -/
def execCand (d s1 : Reg) (c : Cond) (s : State) : Host.Outcome State Fault Refusal :=
  .next (conditionally (fun a b => a &&& b) c d s1 s)

/-- COR (R107). -/
def execCor (d s1 : Reg) (c : Cond) (s : State) : Host.Outcome State Fault Refusal :=
  .next (conditionally (fun a b => a ||| b) c d s1 s)

/-- CXOR (R108). -/
def execCxor (d s1 : Reg) (c : Cond) (s : State) : Host.Outcome State Fault Refusal :=
  .next (conditionally (fun a b => a ^^^ b) c d s1 s)

end Sys2Proof.Machine
end

