-- ==== Sys2Proof/Machine/LoadStore.lean ====
section
/-! DEFINITION. Ops 6 and 7: loads and stores (spec/42_load_store.md). -/

namespace Sys2Proof.Machine

/-- LDn (R93): clear, skip, read the base, read memory, write x[d].  A byte out of bounds undoes the clear and the skip
(R99, R123). -/
def execLdn (d s1 : Reg) (n : Nat) (k : Bool) (s : State) : Host.Outcome State Fault Refusal :=
  match memRead (loadBase d s1 k s) n (loadPrepared d k s) with
  | .error bad => .next (raiseOutOfBounds bad s)
  | .ok (v, t) => .next (t.writeReg d v)

/-- STn (R95): skip, read the address and the value, write memory.  A byte out of bounds undoes the skip (R99, R123). -/
def execStn (d s1 : Reg) (n : Nat) (k : Bool) (s : State) : Host.Outcome State Fault Refusal :=
  match memWrite (storeBase d k s) n (storeValue s1 k s) (skip k s) with
  | .error bad => .next (raiseOutOfBounds bad s)
  | .ok t => .next t

end Sys2Proof.Machine
end

