-- ==== Sys2Proof/Machine/Reserved.lean ====
section
/-! DEFINITION. Op 15: the reserved opcode, which does nothing (spec/45_reserved.md). -/

namespace Sys2Proof.Machine

/-- RSV (R118): no effect beyond the fetch advance, whatever its operand. -/
def execRsv (_imm12 : BitVec 12) (s : State) : Host.Outcome State Fault Refusal := .next s

end Sys2Proof.Machine
end

