-- ==== Sys2Proof/Machine/Shift.lean ====
section
/-! DEFINITION. Op 5: the shifts (spec/41_shift.md). -/

namespace Sys2Proof.Machine

/-- SHIFTI (R88): the amount is the immediate, 0..31 (R83). -/
def execShifti (d : Reg) (imm : BitVec 5) (sel : BitVec 2) (s : State) : Host.Outcome State Fault Refusal :=
  .next (shiftInPlace d imm.toNat sel s)

/-- SHIFTR (R89): the amount is all 32 bits of x[s1] (R83). -/
def execShiftr (d s1 : Reg) (sel : BitVec 2) (s : State) : Host.Outcome State Fault Refusal :=
  .next (shiftInPlace d (s.readReg s1).toNat sel s)

end Sys2Proof.Machine
end

