-- ==== Sys2Proof/Machine/SignedArith.lean ====
section
/-! DEFINITION. Ops 13 and 14: signed add and subtract (spec/44_signed_arith.md). -/

namespace Sys2Proof.Machine

/-- (a + signed(b)) mod 2^32 (R113, R114). -/
def signedAdd (a b : Word) : Word := BitVec.ofInt 32 (a.toNat + b.toInt)

/-- (a − signed(b)) mod 2^32 (R113, R115). -/
def signedSub (a b : Word) : Word := BitVec.ofInt 32 (a.toNat - b.toInt)

/-- ADDS (R114). -/
def execAdds (d s1 s2 : Reg) (s : State) : Host.Outcome State Fault Refusal :=
  let a := s.readReg s1
  let b := s.readReg s2
  .next ((s.writeReg d (signedAdd a b)).updateFlags (flagsAdd a b (signedAdd a b)))

/-- SUBS (R115). -/
def execSubs (d s1 s2 : Reg) (s : State) : Host.Outcome State Fault Refusal :=
  let a := s.readReg s1
  let b := s.readReg s2
  .next ((s.writeReg d (signedSub a b)).updateFlags (flagsSub a b (signedSub a b)))

end Sys2Proof.Machine
end

