-- ==== Sys2Proof/Machine/Dispatch.lean ====
section
/-! DEFINITION. One arm per instruction: the operation DEC selects (spec/30_encoding.md R57, R60). -/

namespace Sys2Proof.Machine

/-- `Execute` of R61, in the state after the fetch advance. -/
def exec (i : Instr) (s : State) : Host.Outcome State Fault Refusal :=
  match i with
  | .add d s1 s2 => Sys2Proof.Machine.execAdd d s1 s2 s
  | .sub d s1 s2 => Sys2Proof.Machine.execSub d s1 s2 s
  | .and d s1 s2 => Sys2Proof.Machine.execAnd d s1 s2 s
  | .or d s1 s2 => Sys2Proof.Machine.execOr d s1 s2 s
  | .xor d s1 s2 => Sys2Proof.Machine.execXor d s1 s2 s
  | .shifti d imm sel => Sys2Proof.Machine.execShifti d imm sel s
  | .shiftr d s1 sel => Sys2Proof.Machine.execShiftr d s1 sel s
  | .ldn d s1 n k => Sys2Proof.Machine.execLdn d s1 n k s
  | .stn d s1 n k => Sys2Proof.Machine.execStn d s1 n k s
  | .cadd d s1 c => Sys2Proof.Machine.execCadd d s1 c s
  | .csub d s1 c => Sys2Proof.Machine.execCsub d s1 c s
  | .cand d s1 c => Sys2Proof.Machine.execCand d s1 c s
  | .cor d s1 c => Sys2Proof.Machine.execCor d s1 c s
  | .cxor d s1 c => Sys2Proof.Machine.execCxor d s1 c s
  | .adds d s1 s2 => Sys2Proof.Machine.execAdds d s1 s2 s
  | .subs d s1 s2 => Sys2Proof.Machine.execSubs d s1 s2 s
  | .rsv imm12 => Sys2Proof.Machine.execRsv imm12 s

end Sys2Proof.Machine
end

