-- ==== Sys2Proof/Machine/Step.lean ====
section
/-! DEFINITION. One step of LOOP (spec/30_encoding.md R61; spec/60_exceptions.md R124, R125). -/

namespace Sys2Proof.Machine

/-- The end of a step, over the outcome of the instruction. -/
def endOutcome : Host.Outcome State Fault Refusal → Host.Outcome State Fault Refusal
  | .next t => .next (endStep t)
  | .fault f => .fault f
  | .refused r => .refused r

/-- `Step()` (R61).  There is no step in FAULTED (R125), none in a refused state (R28), and none with a MEM_SIZE the spec
refuses (D6; log 7).  Otherwise: fetch, PC advance, execute, fault check. -/
def step (s : State) : Host.Outcome State Fault Refusal :=
  if s.loop = .faulted then .fault .loopFaulted
  else if s.refused then .refused .refusalMark
  else if ¬ s.cfg.Legal then .refused (.illegalMemSize s.cfg.memSize)
  else
    match fetch s with
    | .error bad => .next (endStep (raiseOutOfBounds bad s))
    | .ok (w, t) => endOutcome (exec (decodeWord w) (advance t))

/-- `s` with an instruction word stored where `step` fetches its next instruction. -/
def State.withFetchWord (s : State) (nbits w : Nat) : State := placeWord (BitVec.ofNat 16 (w % 2 ^ nbits)) s

end Sys2Proof.Machine
end

