-- ==== Sys2Proof/Machine/Boot.lean ====
section
/-! DEFINITION. The image load and the start of the CORE (spec/70_reset_and_hazards.md R147, R148, R150). -/

namespace Sys2Proof.Machine

/-- Why the CORE does not start. -/
inductive BootError where
  /-- MEM_SIZE is outside its range (R31, D6). -/
  | illegalMemSize
  /-- The image is longer than MEM_SIZE (R148, R150). -/
  | imageTooLarge
  deriving DecidableEq, Repr

/-- Copy the bytes of an image into the backing store from address `a` upward, directly, not through `Write8` (R148).
Bytes at 0xFF00 and above have no effect (R22, R148; log 6). -/
def copyImage : Nat → List Byte → Memory → Memory
  | _, [], m => m
  | a, b :: image, m => copyImage (a + 1) image (if a < 0xFF00 then m.write a b else m)

/-- Reset and image load, the first two items of R147: the state before the first step, or why there is none. -/
def boot (c : Config) (image : List Byte) : Except BootError State :=
  if ¬ c.Legal then .error .illegalMemSize
  else if c.memSize < image.length then .error .imageTooLarge
  else .ok { State.resetWith c with mem := copyImage 0 image [] }

end Sys2Proof.Machine
end

