-- ==== Sys2Proof/Safety.lean ====
section
/-! DEFINITION. The terms claims are stated in: the invariant of the machine, the frame of an instruction, the outcome of a
step as spec/00_scope.md R12 classifies it, fault causes (spec/60_exceptions.md R120), launch states (R152) and the end of a
run (spec/70_reset_and_hazards.md R158). -/

namespace Sys2Proof.Machine

/-! The invariant. -/

/-- The memory lists visible bytes only: addresses below 0xFF00 (R22). -/
abbrev Memory.Visible (m : Memory) : Prop := ∀ p ∈ m, p.1 < 0xFF00

/-- What every state that a run reaches satisfies: a legal configuration (R31); memory in canonical form, visible bytes
only (R22); LOOP FAULTED exactly when a fault flag is set (R21, R124); not both fault flags (R128); a recorded address at
or above MEM_SIZE (R26); no refusal beside a fault (R128). -/
structure State.Inv (s : State) : Prop where
  legal : s.cfg.Legal
  canonical : s.mem.wf
  visible : s.mem.Visible
  faulted_iff : s.loop = .faulted ↔ (s.fault = true ∨ s.boundsFault = true)
  oneFault : ¬ (s.fault = true ∧ s.boundsFault = true)
  boundsAddr_out : s.boundsFault = true → s.cfg.memSize ≤ s.boundsAddr.toNat
  refused_running : s.refused = true → s.loop = .running

/-- A state a test harness may start from (R152): any registers, flags and memory; RUNNING, no fault, no refusal, no
count. -/
structure State.Launch (s : State) : Prop where
  running : s.loop = .running
  noFault : s.fault = false
  noBoundsFault : s.boundsFault = false
  notRefused : s.refused = false
  noCount : s.retired = 0

/-- LOOP takes a step (R61): RUNNING, not refused, with a MEM_SIZE the spec accepts. -/
structure State.Ready (s : State) : Prop where
  running : s.loop = .running
  notRefused : s.refused = false
  legal : s.cfg.Legal

/-! Frames: what stays from a state `s` to a state `t`. -/

/-- Every register but those named keeps its value. -/
def KeepsRegsBut (rs : List Reg) (s t : State) : Prop := ∀ r, r ∉ rs → t.readReg r = s.readReg r

/-- Every byte of memory and every display cell keeps its value. -/
def KeepsMemory (s t : State) : Prop :=
  (∀ a, t.mem.read a = s.mem.read a) ∧ (∀ row column, t.getPixel row column = s.getPixel row column)

/-- Every piece of state that is no register, flag, byte of memory or display cell, the draws apart, keeps its value. -/
def KeepsControl (s t : State) : Prop :=
  t.cfg = s.cfg ∧ t.fault = s.fault ∧ t.boundsFault = s.boundsFault ∧ t.boundsAddr = s.boundsAddr ∧ t.loop = s.loop ∧
    t.retired = s.retired ∧ t.refused = s.refused

/-- Everything but the registers named and the flags keeps its value, the count of draws included. -/
def KeepsAllBut (rs : List Reg) (s t : State) : Prop :=
  KeepsRegsBut rs s t ∧ KeepsMemory s t ∧ KeepsControl s t ∧ t.draws = s.draws

/-- The register an instruction names as its destination (R52): the store and the reserved opcode have none. -/
def destination : Instr → Option Reg
  | .add d _ _ => some d
  | .sub d _ _ => some d
  | .and d _ _ => some d
  | .or d _ _ => some d
  | .xor d _ _ => some d
  | .shifti d _ _ => some d
  | .shiftr d _ _ => some d
  | .ldn d _ _ _ => some d
  | .stn _ _ _ _ => none
  | .cadd d _ _ => some d
  | .csub d _ _ => some d
  | .cand d _ _ => some d
  | .cor d _ _ => some d
  | .cxor d _ _ => some d
  | .adds d _ _ => some d
  | .subs d _ _ => some d
  | .rsv _ => none

/-- The four condition codes outside the table of R101: 10, 11, 14 and 15. -/
def InvalidCode (c : Cond) : Prop := c = .c10 ∨ c = .c11 ∨ c = .c14 ∨ c = .c15

/-- A conditional operation, ops 8 to 12, with the condition `c` (R57, R109). -/
def IsConditional (i : Instr) (c : Cond) : Prop :=
  ∃ d s1, i = .cadd d s1 c ∨ i = .csub d s1 c ∨ i = .cand d s1 c ∨ i = .cor d s1 c ∨ i = .cxor d s1 c

/-- All `n` byte addresses from `a` upward, wrapping modulo 2^32, lie below MEM_SIZE (R34, R35). -/
def InBounds (memSize : Nat) (a : Word) (n : Nat) : Prop :=
  ∀ i < n, (a + BitVec.ofNat 32 i).toNat < memSize

/-- `bad` is the first of the `n` byte addresses from `a` upward that lies at or above MEM_SIZE (R34, R99). -/
def FirstOut (memSize : Nat) (a : Word) (n : Nat) (bad : Word) : Prop :=
  ∃ i < n, bad = a + BitVec.ofNat 32 i ∧ memSize ≤ bad.toNat ∧ ∀ j < i, (a + BitVec.ofNat 32 j).toNat < memSize

/-- The address `b` is one of the `n` byte addresses from `a` upward. -/
def Covers (a : Word) (n : Nat) (b : Nat) : Prop := ∃ i < n, b = (a + BitVec.ofNat 32 i).toNat

/-! Outcomes, causes and ends. -/

/-- The four outcomes of a step (R12). -/
inductive StepKind where
  | next
  | fault
  | noStep
  | refused
  deriving DecidableEq, Repr

/-- The outcome of a step from `s` in the words of R12 (log 5). -/
def stepKind (s : State) : StepKind :=
  match step s with
  | .next t => if t.refused then .refused else if t.boundsFault then .fault else .next
  | .fault _ => .noStep
  | .refused _ => .noStep

/-- The two fault causes, read from which flag is set (R26, R120). -/
inductive FaultCause where
  | invalidCondition
  | outOfBounds
  deriving DecidableEq, Repr

/-- The cause code, the spec's own numbering (R120). -/
def FaultCause.code : FaultCause → Nat
  | .invalidCondition => 1
  | .outOfBounds => 2

/-- The cause of the fault a state is in, if it is in one (R120). -/
def State.faultCause (s : State) : Option FaultCause :=
  if s.fault then some .invalidCondition else if s.boundsFault then some .outOfBounds else none

/-- An idle state (R158): LOOP is RUNNING and the next step leaves everything but `retired` as it is.  A step that takes an
input draw is none, since it changes `draws` (log 10). -/
def State.Idle (s : State) : Prop :=
  s.loop = .running ∧ ∃ t, step s = .next t ∧ { t with retired := s.retired } = s

/-- How a run that stands in this state has ended, if it has (R158). -/
inductive RunEnd (s : State) : Prop where
  /-- A failed end. -/
  | fault (h : s.loop = .faulted)
  /-- The spec says nothing of the chip after it. -/
  | refusal (h : s.refused = true)
  /-- The successful end of a test program. -/
  | idle (h : s.Idle)

end Sys2Proof.Machine
end

