-- ==== Sys2Proof/Certificates/Slice0/Obligations.lean ====
section
/-! DEFINITION. The statements for the provers, each about the machine of spec/ and about no program.  A docstring names the
rule or the sections of spec/ it formalises; where a statement rests on a decision D<n> the spec marks as its own, or on a
choice of the model (log <n>), it says so. -/

open Sys2Proof Sys2Proof.Machine

/-! Reset, launch and the invariant. -/

/-- What reset leaves, in every configuration (70_reset_and_hazards.md section 1, 10_state.md section 7).  The zero of
`boundsAddr` and the values of `retired` and `refused` are the spec's own decisions D7, D29 and D13. -/
def Obligations.ResetLeavesEveryResetValue : Prop :=
  ∀ c : Config,
    (∀ r, (State.resetWith c).readReg r = 0) ∧
    (State.resetWith c).flags = ⟨false, false, false, false⟩ ∧
    (State.resetWith c).fault = false ∧ (State.resetWith c).boundsFault = false ∧
    (State.resetWith c).boundsAddr = 0 ∧ (State.resetWith c).loop = .running ∧
    (∀ a, (State.resetWith c).mem.read a = 0) ∧
    (∀ row column, (State.resetWith c).getPixel row column = c.displayInit[cellIndex row column]) ∧
    (State.resetWith c).retired = 0 ∧ (State.resetWith c).refused = false ∧ (State.resetWith c).pc = 0

/-- The invariant holds after reset in every legal configuration, in the reference configuration (log 1), and in every
launch state (D36) with a legal configuration and a canonical visible memory. -/
def Obligations.StartStatesMeetTheInvariant : Prop :=
  (∀ c : Config, c.Legal → (State.resetWith c).Inv) ∧ State.reset.Inv ∧
  ∀ s : State, s.Launch → s.cfg.Legal → s.mem.wf → s.mem.Visible → s.Inv

/-- Every step keeps the invariant, from every state that meets it, reached or not. -/
def Obligations.EveryStepKeepsTheInvariant : Prop :=
  ∀ s t : State, s.Inv → step s = .next t → t.Inv

/-- The image load (D28; bytes at 0xFF00 and above are not held, log 6): an image longer than MEM_SIZE is rejected; any
other is copied to addresses 0, 1, …, the bytes it does not cover below 0xFF00 stay 0,
nothing else differs from reset, and the state meets the invariant. -/
def Obligations.ImageLoadCopiesFromAddressZero : Prop :=
  ∀ (c : Config) (image : List Byte), c.Legal →
    (c.memSize < image.length → boot c image = .error .imageTooLarge) ∧
    (image.length ≤ c.memSize →
      ∃ s, boot c image = .ok s ∧ s.Inv ∧
        (∀ i, i < 0xFF00 → s.mem.read i = image.getD i 0) ∧
        s = { State.resetWith c with mem := s.mem })

/-! Decoding. -/

/-- Decoding undoes encoding, for every well-formed instruction and every bytes that follow it. -/
def Obligations.DecodeUndoesEncode : Prop :=
  ∀ i : Instr, i.WellFormed = true →
    decodeWord (encode i) = i ∧ ∀ rest, decode (bytesOfWord (encode i) ++ rest) = .ok (i, rest)

/-- Encoding undoes decoding, but for the ignored bit 12 of SHIFTR, LDn and STn (the format table of 30_encoding.md
section 1; the assembler writes ignored bits 0, D31). -/
def Obligations.EncodeUndoesDecode : Prop :=
  ∀ w : HalfWord,
    encode (decodeWord w) = if opField w = 15 then w else w &&& ~~~ignoredBits .instruction w

/-- R60: every word is one instruction, well-formed, whose opcode is word[3:0]; op 5 splits on word[15]. -/
def Obligations.EveryWordDecodesByItsLowNibble : Prop :=
  ∀ w : HalfWord,
    (decodeWord w).WellFormed = true ∧ (decodeWord w).opcode = w.extractLsb' 0 4 ∧
    ((∃ d imm sel, decodeWord w = .shifti d imm sel) ↔ w.extractLsb' 0 4 = 5 ∧ w.getLsbD 15 = false) ∧
    ((∃ d s1 sel, decodeWord w = .shiftr d s1 sel) ↔ w.extractLsb' 0 4 = 5 ∧ w.getLsbD 15 = true)

/-- Ignored bits never change what an instruction does (the spec's own decision D31): two words that differ in ignored bits
only execute alike in every state. -/
def Obligations.IgnoredBitsChangeNothing : Prop :=
  ∀ (s : State) (w w' : HalfWord), (w ^^^ w') &&& ~~~ignoredBits s.cfg.shiftSelect w = 0 →
    exec (decodeWord w) s = exec (decodeWord w') s

/-- The ten encoding examples of 30_encoding.md section 7 decode to the instructions they stand for. -/
def Obligations.ExampleWordsDecode : Prop :=
  decodeWord 0x2100 = .add 0 1 2 ∧ decodeWord 0x2001 = .sub 0 0 2 ∧ decodeWord 0x0435 = .shifti 3 4 0 ∧
  decodeWord 0xC535 = .shiftr 3 5 2 ∧ decodeWord 0xC216 = .ldn 1 2 4 false ∧ decodeWord 0x6016 = .ldn 1 0 2 true ∧
  decodeWord 0x0127 = .stn 2 1 1 false ∧ decodeWord 0x1108 = .cadd 0 1 .t ∧ decodeWord 0xA008 = .cadd 0 0 .c10 ∧
  decodeWord 0x000F = Instr.nop

/-- The length in the instruction stream is told by the first word (30_encoding.md section 6), and an instruction that does
not name x[0] as its destination and raises no OutOfBounds leaves the PC just past it.  `exec` runs after the fetch advance,
so the instruction stands at x[0] − 2. -/
def Obligations.PcLeavesPastTheInstruction : Prop :=
  ∀ w : HalfWord,
    (decodeWord w).length = (if (w.extractLsb' 0 4 = 6 ∨ w.extractLsb' 0 4 = 7) ∧ w.getLsbD 13 = true then 4 else 2) ∧
    ∀ s t : State, destination (decodeWord w) ≠ some 0 → exec (decodeWord w) s = .next t → t.boundsFault = false →
      t.pc = s.pc - 2 + BitVec.ofNat 32 (decodeWord w).length

/-! The step. -/

/-- A step from a state that takes one, at a PC whose two bytes are in bounds, is `exec` of the instruction the two bytes
decode to, in the state after the two reads and the fetch advance, followed by the end of the step.  The second clause is the
same in plain memory, where a read changes nothing.  (Fetch width and byte order: D2, D3; the read through Read8: D9.) -/
def Obligations.StepRunsTheDecodedInstruction : Prop :=
  ∀ s : State, s.Ready → InBounds s.cfg.memSize s.pc 2 →
    (∀ lo hi : Byte × State, lo = read8 s.pc s → hi = read8 (s.pc + 1) lo.2 →
      step s = endOutcome (exec (decodeWord (wordOfBytes lo.1 hi.1)) (advance hi.2))) ∧
    (∀ i, s.pc.toNat + 1 < 0xFF00 →
      decode [s.mem.read s.pc.toNat, s.mem.read (s.pc.toNat + 1)] = .ok (i, []) →
      step s = endOutcome (exec i (advance s)))

/-- Every instruction takes every state to a next state, and so does every step the loop takes: no encoding is illegal and
the CORE never stops by itself while RUNNING (30_encoding.md section 5; D27).  Two of these next states are the model's form of
what the spec calls otherwise (00_scope.md section 6): a fetch, load or store out of bounds, the spec's outcome 'fault', is a next
state with `bounds_fault` set (log 5), and a shift of an unknown kind, the spec's outcome 'refused', is a next state with the
refusal mark set and x[d] free (log 4). -/
def Obligations.EveryInstructionCompletes : Prop :=
  (∀ (i : Instr) (s : State), ∃ t, exec i s = .next t) ∧ (∀ s : State, s.Ready → ∃ t, step s = .next t)

/-- Fetch (30_encoding.md section 3; D2, D3, D7; through Read8, D9): the first byte out of bounds is reported before any read;
otherwise the byte at x[0] is word[7:0] and the byte at x[0] +32 1 is word[15:8]. -/
def Obligations.FetchIsCheckedAndLittleEndian : Prop :=
  ∀ s : State,
    (∀ bad, FirstOut s.cfg.memSize s.pc 2 bad → fetch s = .error bad) ∧
    (InBounds s.cfg.memSize s.pc 2 → ∃ w t, fetch s = .ok (w, t) ∧
      w.extractLsb' 0 8 = (read8 s.pc s).1 ∧ w.extractLsb' 8 8 = (read8 (s.pc + 1) (read8 s.pc s).2).1 ∧
      t = { s with draws := t.draws })

/-- A fetch out of bounds (D7, D8): the step leaves the state as it was, x[0] and `retired` included, but for `bounds_fault`,
`bounds_addr` and LOOP.  That the spec's outcome 'fault' is answered as a next state is the model's form (log 5). -/
def Obligations.FetchOutOfBoundsEndsTheRun : Prop :=
  ∀ (s : State) (bad : Word), s.Ready → FirstOut s.cfg.memSize s.pc 2 bad →
    step s = .next { s with boundsFault := true, boundsAddr := bad, loop := .faulted }

/-- In FAULTED there is no step, so no state changes (R125).  That a missing step is answered by the fault `loopFaulted`, and
that only FAULTED has this answer, is the model's form (log 5).  That the signal `faulted` is true exactly there is the
spec's own decision D35 (R8). -/
def Obligations.FaultedTakesNoStep : Prop :=
  ∀ s : State, (s.loop = .faulted ↔ step s = .fault .loopFaulted) ∧ (s.faulted = true ↔ s.loop = .faulted)

/-- A refused state takes no step (D13), and a configuration with an illegal MEM_SIZE is refused (D6).  The answers by name
are the model's form (log 4, log 7). -/
def Obligations.RefusedTakesNoStep : Prop :=
  ∀ s : State, s.loop = .running →
    (s.refused = true → step s = .refused .refusalMark) ∧
    (s.refused = false → ¬ s.cfg.Legal → step s = .refused (.illegalMemSize s.cfg.memSize))

/-- A step is taken in RUNNING only, with no fault flag true; LOOP is FAULTED after it exactly when a fault flag is true then;
and that step is the last one (R124).  That the step missing after it is answered by the fault `loopFaulted` is the model's
form (log 5). -/
def Obligations.LoopMovesToFaultedExactlyOnAFault : Prop :=
  ∀ s t : State, s.Inv → step s = .next t →
    s.loop = .running ∧ s.fault = false ∧ s.boundsFault = false ∧
    (t.loop = .faulted ↔ (t.fault = true ∨ t.boundsFault = true)) ∧
    (t.loop = .faulted → step t = .fault .loopFaulted)

/-- The counter `retired` counts the instructions passed to the executor (D29), and no step changes the configuration.  A
fetch out of bounds, which is not counted, is a next state too (log 5). -/
def Obligations.RetiredCountsExecutedInstructions : Prop :=
  ∀ s t : State, step s = .next t → t.cfg = s.cfg ∧
    (InBounds s.cfg.memSize s.pc 2 → t.retired = s.retired + 1) ∧
    (¬ InBounds s.cfg.memSize s.pc 2 → t.retired = s.retired)

/-! Faults. -/

/-- R121: `fault` is set by a conditional operation with an invalid code, and by nothing else; nothing clears it. -/
def Obligations.OnlyInvalidConditionsSetFault : Prop :=
  ∀ (i : Instr) (s t : State), exec i s = .next t →
    (t.fault = true ↔ s.fault = true ∨ ∃ c, IsConditional i c ∧ InvalidCode c)

/-- In execution `bounds_fault` is set by a load or a store with a byte out of bounds, and by nothing else; the address
recorded is the first such byte; nothing clears it (the spec's own decisions D7, D8).  That the spec's outcome 'fault' is a
next state is the model's form (log 5). -/
def Obligations.OnlyMemoryAccessesSetBoundsFault : Prop :=
  ∀ (i : Instr) (s t : State), exec i s = .next t →
    (t.boundsFault = true ↔ s.boundsFault = true ∨
      (∃ d s1 n k bad, i = .ldn d s1 n k ∧ FirstOut s.cfg.memSize (loadBase d s1 k s) n bad ∧ t.boundsAddr = bad) ∨
      (∃ d s1 n k bad, i = .stn d s1 n k ∧ FirstOut s.cfg.memSize (storeBase d k s) n bad ∧ t.boundsAddr = bad))

/-- The cause of a fault is read from which flag is set (the table of 60_exceptions.md section 1, codes of the spec's own
numbering): under the invariant, FAULTED has exactly one cause. -/
def Obligations.FaultCauseIsReadFromTheFlags : Prop :=
  ∀ s : State, s.Inv →
    (s.loop = .faulted ↔ ∃ c, s.faultCause = some c) ∧
    (s.fault = true ↔ s.faultCause.map FaultCause.code = some 1) ∧
    (s.boundsFault = true ↔ s.faultCause.map FaultCause.code = some 2)

/-- R110: a step at a conditional operation with an invalid code leaves everything as the fetch advance left it, but for
`fault` and LOOP. -/
def Obligations.InvalidConditionSuppressesTheEffect : Prop :=
  ∀ (s u : State) (w : HalfWord) (c : Cond), s.Ready → fetch s = .ok (w, u) → IsConditional (decodeWord w) c →
    InvalidCode c → step s = .next { advance u with fault := true, loop := .faulted }

/-- A load or store with a byte out of bounds (D7, D8): the state is as after the fetch advance, but for `bounds_fault` and
`bounds_addr`, which names the first failing byte.  The load's clear and the skip are undone, no byte is accessed.  That the
spec's outcome 'fault' is a next state is the model's form (log 5). -/
def Obligations.LoadStoreOutOfBoundsIsPrecise : Prop :=
  ∀ (s : State) (d s1 : Reg) (n : Nat) (k : Bool) (bad : Word),
    (FirstOut s.cfg.memSize (loadBase d s1 k s) n bad →
      exec (.ldn d s1 n k) s = .next { s with boundsFault := true, boundsAddr := bad }) ∧
    (FirstOut s.cfg.memSize (storeBase d k s) n bad →
      exec (.stn d s1 n k) s = .next { s with boundsFault := true, boundsAddr := bad })

/-! Flags and conditions. -/

/-- R101: what each of the sixteen codes answers, and that an invalid code sets `fault` and nothing else. -/
def Obligations.ConditionCodesAnswerTheTable : Prop :=
  ∀ s : State,
    condEval (Cond.ofCode 0) s = (false, s) ∧ condEval (Cond.ofCode 1) s = (true, s) ∧
    condEval (Cond.ofCode 2) s = (!s.flags.z, s) ∧ condEval (Cond.ofCode 3) s = (s.flags.z, s) ∧
    condEval (Cond.ofCode 4) s = (!s.flags.s, s) ∧ condEval (Cond.ofCode 5) s = (s.flags.s, s) ∧
    condEval (Cond.ofCode 6) s = (!s.flags.c, s) ∧ condEval (Cond.ofCode 7) s = (s.flags.c, s) ∧
    condEval (Cond.ofCode 8) s = (!s.flags.v, s) ∧ condEval (Cond.ofCode 9) s = (s.flags.v, s) ∧
    condEval (Cond.ofCode 12) s = (s.flags.s != s.flags.v, s) ∧
    condEval (Cond.ofCode 13) s = (s.flags.s == s.flags.v, s) ∧
    ∀ code : BitVec 4, (code = 10 ∨ code = 11 ∨ code = 14 ∨ code = 15) →
      condEval (Cond.ofCode code) s = (false, { s with fault := true })

/-- With every flag false each condition has a fixed answer: the true ones are T, NE, PL, CC, VC and GE
(43_conditional.md section 1, the spec's own derivation). -/
def Obligations.ConditionsAreFixedWhileFlagsAreFalse : Prop :=
  ∀ (s : State) (c : Cond), s.flags = ⟨false, false, false, false⟩ →
    ((condEval c s).1 = true ↔ c = .t ∨ c = .ne ∨ c = .pl ∨ c = .cc ∨ c = .vc ∨ c = .ge)

/-- Which instructions write the flags (D10, D11): with FLAG_MODE = `none` no instruction; with `arith` ops 0, 1, 13 and 14
write all four from the operands read and the result, and no other instruction writes one. -/
def Obligations.FlagsAreWrittenByFourOpsInArithOnly : Prop :=
  ∀ (i : Instr) (s t : State), exec i s = .next t →
    (s.cfg.flagMode = .none → t.flags = s.flags) ∧
    (s.cfg.flagMode = .arith → ∀ d s1 s2,
      (i = .add d s1 s2 ∨ i = .adds d s1 s2 →
        t.flags = flagsAdd (s.readReg s1) (s.readReg s2) (s.readReg s1 + s.readReg s2)) ∧
      (i = .sub d s1 s2 ∨ i = .subs d s1 s2 →
        t.flags = flagsSub (s.readReg s1) (s.readReg s2) (s.readReg s1 - s.readReg s2))) ∧
    (i.opcode ≠ 0 → i.opcode ≠ 1 → i.opcode ≠ 13 → i.opcode ≠ 14 → t.flags = s.flags)

/-- What the flags of an addition and of a subtraction say (40_alu.md section 1; the formulas are the usual ones, G2; that
C after a subtraction is the borrow is the spec's own choice, D11): Z a zero result, S its bit 31, C an unsigned result that
does not fit, V a signed result that does not fit. -/
def Obligations.FlagsMeanZeroSignCarryOverflow : Prop :=
  ∀ a b : Word,
    ((flagsAdd a b (a + b)).z = true ↔ a + b = 0) ∧
    ((flagsAdd a b (a + b)).s = true ↔ 2 ^ 31 ≤ (a + b).toNat) ∧
    ((flagsAdd a b (a + b)).c = true ↔ (a + b).toNat ≠ a.toNat + b.toNat) ∧
    ((flagsAdd a b (a + b)).v = true ↔ (a + b).toInt ≠ a.toInt + b.toInt) ∧
    ((flagsSub a b (a - b)).z = true ↔ a = b) ∧
    ((flagsSub a b (a - b)).s = true ↔ 2 ^ 31 ≤ (a - b).toNat) ∧
    ((flagsSub a b (a - b)).c = true ↔ ((a - b).toNat : Int) ≠ (a.toNat : Int) - b.toNat) ∧
    ((flagsSub a b (a - b)).v = true ↔ (a - b).toInt ≠ a.toInt - b.toInt)

/-! Arithmetic and logic.  Each statement: the instruction completes in every state, with this result and these flags;
everything else keeps its value; and its word is the one its rule writes out. -/

/-- R77, ADD, with the flags of R77's last line (what `flagsAdd` answers is a statement of its own). -/
def Obligations.AddWritesTheWrappedSum : Prop :=
  ∀ (d s1 s2 : Reg) (s : State),
    (encode (.add d s1 s2)).toNat = s2.val * 2 ^ 12 + s1.val * 2 ^ 8 + d.val * 2 ^ 4 + 0x0 ∧
    ∃ t, exec (.add d s1 s2) s = .next t ∧
      (t.readReg d).toNat = ((s.readReg s1).toNat + (s.readReg s2).toNat) % 2 ^ 32 ∧
      (s.cfg.flagMode = .none → t.flags = s.flags) ∧
      (s.cfg.flagMode = .arith → t.flags = flagsAdd (s.readReg s1) (s.readReg s2) (t.readReg d)) ∧
      KeepsAllBut [d] s t

/-- R78, SUB, with the flags of R78's last line (what `flagsSub` answers is a statement of its own). -/
def Obligations.SubWritesTheWrappedDifference : Prop :=
  ∀ (d s1 s2 : Reg) (s : State),
    (encode (.sub d s1 s2)).toNat = s2.val * 2 ^ 12 + s1.val * 2 ^ 8 + d.val * 2 ^ 4 + 0x1 ∧
    ∃ t, exec (.sub d s1 s2) s = .next t ∧
      ((t.readReg d).toNat : Int) = ((s.readReg s1).toNat - (s.readReg s2).toNat : Int) % 2 ^ 32 ∧
      (s.cfg.flagMode = .none → t.flags = s.flags) ∧
      (s.cfg.flagMode = .arith → t.flags = flagsSub (s.readReg s1) (s.readReg s2) (t.readReg d)) ∧
      KeepsAllBut [d] s t

/-- R79, AND. -/
def Obligations.AndWritesTheBitwiseAnd : Prop :=
  ∀ (d s1 s2 : Reg) (s : State),
    (encode (.and d s1 s2)).toNat = s2.val * 2 ^ 12 + s1.val * 2 ^ 8 + d.val * 2 ^ 4 + 0x2 ∧
    ∃ t, exec (.and d s1 s2) s = .next t ∧
      (∀ i, (t.readReg d).getLsbD i = ((s.readReg s1).getLsbD i && (s.readReg s2).getLsbD i)) ∧
      t.flags = s.flags ∧ KeepsAllBut [d] s t

/-- R80, OR. -/
def Obligations.OrWritesTheBitwiseOr : Prop :=
  ∀ (d s1 s2 : Reg) (s : State),
    (encode (.or d s1 s2)).toNat = s2.val * 2 ^ 12 + s1.val * 2 ^ 8 + d.val * 2 ^ 4 + 0x3 ∧
    ∃ t, exec (.or d s1 s2) s = .next t ∧
      (∀ i, (t.readReg d).getLsbD i = ((s.readReg s1).getLsbD i || (s.readReg s2).getLsbD i)) ∧
      t.flags = s.flags ∧ KeepsAllBut [d] s t

/-- R81, XOR. -/
def Obligations.XorWritesTheBitwiseExclusiveOr : Prop :=
  ∀ (d s1 s2 : Reg) (s : State),
    (encode (.xor d s1 s2)).toNat = s2.val * 2 ^ 12 + s1.val * 2 ^ 8 + d.val * 2 ^ 4 + 0x4 ∧
    ∃ t, exec (.xor d s1 s2) s = .next t ∧
      (∀ i, (t.readReg d).getLsbD i = ((s.readReg s1).getLsbD i != (s.readReg s2).getLsbD i)) ∧
      t.flags = s.flags ∧ KeepsAllBut [d] s t

/-- ADDS (44_signed_arith.md).  That it sets the flags of ADD is the spec's own choice, D11. -/
def Obligations.AddsWritesTheSumWithASignedOperand : Prop :=
  ∀ (d s1 s2 : Reg) (s : State),
    (encode (.adds d s1 s2)).toNat = s2.val * 2 ^ 12 + s1.val * 2 ^ 8 + d.val * 2 ^ 4 + 0xD ∧
    ∃ t, exec (.adds d s1 s2) s = .next t ∧
      ((t.readReg d).toNat : Int) = ((s.readReg s1).toNat + (s.readReg s2).toInt : Int) % 2 ^ 32 ∧
      (s.cfg.flagMode = .none → t.flags = s.flags) ∧
      (s.cfg.flagMode = .arith → t.flags = flagsAdd (s.readReg s1) (s.readReg s2) (t.readReg d)) ∧
      KeepsAllBut [d] s t

/-- SUBS (44_signed_arith.md).  That it sets the flags of SUB is the spec's own choice, D11. -/
def Obligations.SubsWritesTheDifferenceWithASignedOperand : Prop :=
  ∀ (d s1 s2 : Reg) (s : State),
    (encode (.subs d s1 s2)).toNat = s2.val * 2 ^ 12 + s1.val * 2 ^ 8 + d.val * 2 ^ 4 + 0xE ∧
    ∃ t, exec (.subs d s1 s2) s = .next t ∧
      ((t.readReg d).toNat : Int) = ((s.readReg s1).toNat - (s.readReg s2).toInt : Int) % 2 ^ 32 ∧
      (s.cfg.flagMode = .none → t.flags = s.flags) ∧
      (s.cfg.flagMode = .arith → t.flags = flagsSub (s.readReg s1) (s.readReg s2) (t.readReg d)) ∧
      KeepsAllBut [d] s t

/-- Ops 13 and 14 do what ops 0 and 1 do, from every state (44_signed_arith.md, the spec's own derivation). -/
def Obligations.SignedOpsEqualUnsignedOps : Prop :=
  ∀ (d s1 s2 : Reg) (s : State),
    exec (.adds d s1 s2) s = exec (.add d s1 s2) s ∧ exec (.subs d s1 s2) s = exec (.sub d s1 s2) s

/-! Shifts. -/

/-- The three shift functions (41_shift.md section 1; amounts of 32 and more D16, the mask and the sign bit D15). -/
def Obligations.ShiftFunctionsAreUnbounded : Prop :=
  ∀ (v : Word) (a : Nat),
    (shl v a).toNat = v.toNat * 2 ^ a % 2 ^ 32 ∧ (srl v a).toNat = v.toNat / 2 ^ a ∧
    (sar .width32 v a).toInt = v.toInt / 2 ^ a ∧
    (v.msb = false → sar .literal16 v a = srl v a) ∧
    (v.msb = true → sar .literal16 v a = srl v a ||| ~~~(srl 0x0000FFFF a))

/-- Where the kind of a shift comes from (D12) and what its values stand for (D13). -/
def Obligations.ShiftKindIsSelectedByTheMode : Prop :=
  ∀ (s : State) (sel : BitVec 2),
    (s.cfg.shiftSelect = .register → sel.getLsbD 1 = false → shiftSelector sel s = s.readReg 0) ∧
    (s.cfg.shiftSelect = .register → sel.getLsbD 1 = true → shiftSelector sel s = s.readReg 2) ∧
    (s.cfg.shiftSelect = .instruction → (shiftSelector sel s).toNat = sel.toNat) ∧
    ShiftKind.ofWord 0 = some .left ∧ ShiftKind.ofWord 1 = some .logicalRight ∧
    ShiftKind.ofWord 2 = some .arithmeticRight ∧ ∀ v : Word, 3 ≤ v.toNat → ShiftKind.ofWord v = none

/-- SHIFTI with a kind that has a meaning (41_shift.md section 1; in place D14, kinds D12, D13, mask D15). -/
def Obligations.ShiftiShiftsInPlaceByTheImmediate : Prop :=
  ∀ (d : Reg) (imm : BitVec 5) (sel : BitVec 2) (s : State),
    (encode (.shifti d imm sel)).toNat = sel.toNat * 2 ^ 13 + imm.toNat * 2 ^ 8 + d.val * 2 ^ 4 + 0x5 ∧
    ∀ kind, ShiftKind.ofWord (shiftSelector sel s) = some kind →
      ∃ t, exec (.shifti d imm sel) s = .next t ∧
        (kind = .left → t.readReg d = shl (s.readReg d) imm.toNat) ∧
        (kind = .logicalRight → t.readReg d = srl (s.readReg d) imm.toNat) ∧
        (kind = .arithmeticRight → t.readReg d = sar s.cfg.sarFill (s.readReg d) imm.toNat) ∧
        t.flags = s.flags ∧ KeepsAllBut [d] s t

/-- SHIFTR with a kind that has a meaning: the amount is all 32 bits of x[s1] (D14, D16; kinds D12, D13, mask D15). -/
def Obligations.ShiftrShiftsInPlaceByARegister : Prop :=
  ∀ (d s1 : Reg) (sel : BitVec 2) (s : State),
    (encode (.shiftr d s1 sel)).toNat = 0x8000 + sel.toNat * 2 ^ 13 + s1.val * 2 ^ 8 + d.val * 2 ^ 4 + 0x5 ∧
    ∀ kind, ShiftKind.ofWord (shiftSelector sel s) = some kind →
      ∃ t, exec (.shiftr d s1 sel) s = .next t ∧
        (kind = .left → t.readReg d = shl (s.readReg d) (s.readReg s1).toNat) ∧
        (kind = .logicalRight → t.readReg d = srl (s.readReg d) (s.readReg s1).toNat) ∧
        (kind = .arithmeticRight → t.readReg d = sar s.cfg.sarFill (s.readReg d) (s.readReg s1).toNat) ∧
        t.flags = s.flags ∧ KeepsAllBut [d] s t

/-- A shift of an unknown kind is refused (D13): the refusal mark is set; every other register, flag, byte and field is as it
was; and the state after the step takes no step.  Of x[d] nothing is claimed.  That the step itself is a next state, and the
missing step after it the refusal `refusalMark`, is the model's form (log 4). -/
def Obligations.UnknownShiftKindIsRefused : Prop :=
  ∀ (i : Instr) (d s1 : Reg) (imm : BitVec 5) (sel : BitVec 2) (s : State),
    (i = .shifti d imm sel ∨ i = .shiftr d s1 sel) → ShiftKind.ofWord (shiftSelector sel s) = none →
    ∃ t, exec i s = .next t ∧ t.refused = true ∧ KeepsRegsBut [d] s t ∧ KeepsMemory s t ∧ t.flags = s.flags ∧
      KeepsControl { s with refused := true } t ∧
      (s.loop = .running → step (endStep t) = .refused .refusalMark)

/-! Loads and stores. -/

/-- LDn with every byte in bounds (42_load_store.md section 2; the base is read once, after the clear and the skip, D18; the
bytes are read in ascending order, D19): x[d] is the little-endian value of the n bytes, its bits 31..8n zero; x[0] is
advanced by 2·k unless the load writes it; nothing else changes, but for the draws of bytes read in the input range (log 3). -/
def Obligations.LoadWritesTheBytesRead : Prop :=
  ∀ (d s1 : Reg) (n : Nat) (k : Bool) (s : State), ByteCount n →
    (encode (.ldn d s1 n k)).toNat = (n - 1) * 2 ^ 14 + k.toNat * 2 ^ 13 + s1.val * 2 ^ 8 + d.val * 2 ^ 4 + 0x6 ∧
    (InBounds s.cfg.memSize (loadBase d s1 k s) n →
      ∃ t, exec (.ldn d s1 n k) s = .next t ∧
        t.readReg d = (readBytes n (loadBase d s1 k s) (loadPrepared d k s)).1 ∧
        (t.readReg d).toNat < 2 ^ (8 * n) ∧
        (d ≠ 0 → t.pc = s.pc + (if k then 2 else 0)) ∧
        KeepsRegsBut [0, d] s t ∧ t.flags = s.flags ∧ KeepsMemory s t ∧ KeepsControl s t)

/-- LDn from plain memory: byte i of x[d] is the byte stored at base +32 i, and no draw is taken. -/
def Obligations.LoadFromMemoryIsLittleEndian : Prop :=
  ∀ (d s1 : Reg) (n : Nat) (k : Bool) (s : State), ByteCount n → s.cfg.Legal →
    (∀ i < n, (loadBase d s1 k s + BitVec.ofNat 32 i).toNat < 0xFF00) →
    ∃ t, exec (.ldn d s1 n k) s = .next t ∧ t.draws = s.draws ∧
      (∀ i < n, (t.readReg d).extractLsb' (8 * i) 8 = s.mem.read (loadBase d s1 k s + BitVec.ofNat 32 i).toNat) ∧
      ∀ i, n ≤ i → (t.readReg d).extractLsb' (8 * i) 8 = 0

/-- STn with every byte in bounds (42_load_store.md section 3; the bound check D7): byte i of x[s1] goes to base +32 i, in
memory below 0xFF00 and to the cell in the display range, which then holds exactly that byte (the spec's own decision D20);
every other byte and cell, every register but x[0], which the skip advances, every flag and all other state keep their
values.  That bytes in the input range take no draw is the model's choice, which D22 allows (log 6). -/
def Obligations.StoreWritesTheBytesAndNothingElse : Prop :=
  ∀ (d s1 : Reg) (n : Nat) (k : Bool) (s : State), ByteCount n → s.mem.wf →
    (encode (.stn d s1 n k)).toNat = (n - 1) * 2 ^ 14 + k.toNat * 2 ^ 13 + s1.val * 2 ^ 8 + d.val * 2 ^ 4 + 0x7 ∧
    (InBounds s.cfg.memSize (storeBase d k s) n →
      ∃ t, exec (.stn d s1 n k) s = .next t ∧
        (∀ i < n, ∀ a, a = (storeBase d k s + BitVec.ofNat 32 i).toNat →
          (a < 0xFF00 → t.mem.read a = (storeValue s1 k s).extractLsb' (8 * i) 8) ∧
          (0xFF00 ≤ a → a ≤ 0xFF18 →
            t.getPixel (cellRow a) (cellColumn a) = (storeValue s1 k s).extractLsb' (8 * i) 8)) ∧
        (∀ a, ¬ Covers (storeBase d k s) n a → t.mem.read a = s.mem.read a) ∧
        (∀ a, 0xFF00 ≤ a → a ≤ 0xFF18 → ¬ Covers (storeBase d k s) n a →
          t.getPixel (cellRow a) (cellColumn a) = s.getPixel (cellRow a) (cellColumn a)) ∧
        t.pc = s.pc + (if k then 2 else 0) ∧ KeepsRegsBut [0] s t ∧ t.flags = s.flags ∧ KeepsControl s t ∧
        t.draws = s.draws)

/-- The operands of a load and a store when d, s1 and 0 coincide, and when they do not (42_load_store.md sections 2 and 3,
the spec's own derivations; the base of a load is read after the clear and the skip, D18). -/
def Obligations.OperandsAreReadAfterTheSkip : Prop :=
  ∀ (d s1 : Reg) (k : Bool) (s : State),
    (d = s1 → d ≠ 0 → loadBase d s1 k s = 0) ∧
    (s1 = 0 → d ≠ 0 → loadBase d s1 k s = s.pc + (if k then 2 else 0)) ∧
    (d = 0 → s1 = 0 → loadBase d s1 k s = if k then 2 else 0) ∧
    (s1 ≠ 0 → d ≠ s1 → loadBase d s1 k s = s.readReg s1) ∧
    storeBase d k s = (if d = 0 then s.pc + (if k then 2 else 0) else s.readReg d) ∧
    storeValue s1 k s = (if s1 = 0 then s.pc + (if k then 2 else 0) else s.readReg s1)

/-- A store to plain memory, then, after anything that leaves the stored bytes and the address register alone, a load of as
many bytes from the same address, gives the value stored, reduced to those bytes (42_load_store.md section 4, the spec's own
derivation). -/
def Obligations.LoadAfterStoreGivesTheValue : Prop :=
  ∀ (d s1 r : Reg) (n : Nat) (k k' : Bool) (s t u : State), ByteCount n → s.mem.wf → s.cfg.Legal →
    d ≠ 0 → r ≠ 0 → r ≠ d → (s.readReg d).toNat + n ≤ 0xFF00 → exec (.stn d s1 n k) s = .next t →
    u.cfg = s.cfg → u.readReg d = s.readReg d →
    (∀ i < n, u.mem.read ((s.readReg d).toNat + i) = t.mem.read ((s.readReg d).toNat + i)) →
    ∃ v, exec (.ldn r d n k') u = .next v ∧ (v.readReg r).toNat = (storeValue s1 k s).toNat % 2 ^ (8 * n)

/-- The address map for a read of one byte (20_memory.md sections 1 to 4; OutOfBounds D7; a display cell reads as the exact
byte it holds, D20; the input byte D21 is the free value of log 3, here only its upper four bits are claimed). -/
def Obligations.ReadFollowsTheAddressMap : Prop :=
  ∀ (a : Word) (s : State), s.cfg.Legal →
    (a.toNat < 0xFF00 → memRead a 1 s = .ok ((s.mem.read a.toNat).setWidth 32, s)) ∧
    (0xFF00 ≤ a.toNat → a.toNat ≤ 0xFF18 → ∀ row column : Fin 5,
      row.val = (a.toNat - 0xFF00) / 5 → column.val = (a.toNat - 0xFF00) % 5 →
      memRead a 1 s = .ok ((s.getPixel row column).setWidth 32, s)) ∧
    (0xFF19 ≤ a.toNat → a.toNat ≤ 0xFF1F →
      ∃ v, memRead a 1 s = .ok (v, s.nextDraw) ∧ v.toNat < 16) ∧
    (s.cfg.memSize ≤ a.toNat → memRead a 1 s = .error a)

/-- The address map for a write of one byte (20_memory.md sections 1 to 4; OutOfBounds D7; a display cell holds exactly the
byte written, the spec's own decision D20; the write to the input range D22, its draw left out, log 6). -/
def Obligations.WriteFollowsTheAddressMap : Prop :=
  ∀ (a v : Word) (s : State), s.cfg.Legal → s.mem.wf →
    (a.toNat < 0xFF00 → ∃ t, memWrite a 1 v s = .ok t ∧ t = { s with mem := t.mem } ∧
      ∀ x, t.mem.read x = if x = a.toNat then v.extractLsb' 0 8 else s.mem.read x) ∧
    (0xFF00 ≤ a.toNat → a.toNat ≤ 0xFF18 → ∃ t, memWrite a 1 v s = .ok t ∧ t = { s with display := t.display } ∧
      ∀ row column : Fin 5, t.getPixel row column =
        if row.val * 5 + column.val = a.toNat - 0xFF00 then v.extractLsb' 0 8 else s.getPixel row column) ∧
    (0xFF19 ≤ a.toNat → a.toNat ≤ 0xFF1F → memWrite a 1 v s = .ok s) ∧
    (s.cfg.memSize ≤ a.toNat → memWrite a 1 v s = .error a)

/-- R46: a read of the unmapped range gives 0 and a write there does nothing. -/
def Obligations.UnmappedReadsZeroAndIgnoresWrites : Prop :=
  ∀ (a v : Word) (s : State), 0xFF20 ≤ a.toNat → a.toNat < s.cfg.memSize →
    memRead a 1 s = .ok (0, s) ∧ memWrite a 1 v s = .ok s

/-- Each byte read in the input range is a draw of its own (D21; log 3): two bytes there take two draws, and each answer fills
bits 3:0 of its byte.  That the draws are taken in ascending order of address is the spec's own decision D19. -/
def Obligations.InputBytesAreSeparateDraws : Prop :=
  ∀ (a : Word) (s : State), s.cfg.Legal → 0xFF19 ≤ a.toNat → a.toNat < 0xFF1F →
    memRead a 2 s = .ok (((Config.inputDraw (s.draws + 1)).setWidth 32 <<< 8) ||| (Config.inputDraw s.draws).setWidth 32,
      s.nextDraw.nextDraw)

/-- A store over the next instruction is what the next fetch reads (D9; its width and byte order D2, D3): `ST2 (r0), rs1`
in plain memory. -/
def Obligations.FetchSeesAnEarlierStore : Prop :=
  ∀ (s1 : Reg) (s : State), s.cfg.Legal → s.mem.wf → s.pc.toNat + 1 < 0xFF00 →
    ∃ t, exec (.stn 0 s1 2 false) s = .next t ∧ fetch t = .ok ((s.readReg s1).extractLsb' 0 16, t)

/-- No instruction but the store changes a byte of memory or a cell (20_memory.md section 1). -/
def Obligations.OnlyStoresChangeMemory : Prop :=
  ∀ (i : Instr) (s t : State), exec i s = .next t → i.opcode ≠ 7 → KeepsMemory s t

/-! Conditional operations.  Each statement: with a condition that holds the operation completes with this result and
everything else keeps its value; with one that does not, nothing changes; with an invalid one only `fault` is set. -/

/-- R104, CADD. -/
def Obligations.CaddAddsWhenTheConditionHolds : Prop :=
  ∀ (d s1 : Reg) (c : Cond) (s : State),
    (encode (.cadd d s1 c)).toNat = c.code.toNat * 2 ^ 12 + s1.val * 2 ^ 8 + d.val * 2 ^ 4 + 0x8 ∧
    ((condEval c s).1 = true → ∃ t, exec (.cadd d s1 c) s = .next t ∧
      t.readReg d = s.readReg d + s.readReg s1 ∧ t.flags = s.flags ∧ KeepsAllBut [d] s t) ∧
    ((condEval c s).1 = false → ¬ InvalidCode c → exec (.cadd d s1 c) s = .next s) ∧
    (InvalidCode c → exec (.cadd d s1 c) s = .next { s with fault := true })

/-- CSUB (43_conditional.md section 2; the form of the operation D32). -/
def Obligations.CsubSubtractsWhenTheConditionHolds : Prop :=
  ∀ (d s1 : Reg) (c : Cond) (s : State),
    (encode (.csub d s1 c)).toNat = c.code.toNat * 2 ^ 12 + s1.val * 2 ^ 8 + d.val * 2 ^ 4 + 0x9 ∧
    ((condEval c s).1 = true → ∃ t, exec (.csub d s1 c) s = .next t ∧
      t.readReg d = s.readReg d - s.readReg s1 ∧ t.flags = s.flags ∧ KeepsAllBut [d] s t) ∧
    ((condEval c s).1 = false → ¬ InvalidCode c → exec (.csub d s1 c) s = .next s) ∧
    (InvalidCode c → exec (.csub d s1 c) s = .next { s with fault := true })

/-- CAND (43_conditional.md section 2; the form of the operation D32). -/
def Obligations.CandMasksWhenTheConditionHolds : Prop :=
  ∀ (d s1 : Reg) (c : Cond) (s : State),
    (encode (.cand d s1 c)).toNat = c.code.toNat * 2 ^ 12 + s1.val * 2 ^ 8 + d.val * 2 ^ 4 + 0xA ∧
    ((condEval c s).1 = true → ∃ t, exec (.cand d s1 c) s = .next t ∧
      t.readReg d = s.readReg d &&& s.readReg s1 ∧ t.flags = s.flags ∧ KeepsAllBut [d] s t) ∧
    ((condEval c s).1 = false → ¬ InvalidCode c → exec (.cand d s1 c) s = .next s) ∧
    (InvalidCode c → exec (.cand d s1 c) s = .next { s with fault := true })

/-- COR (43_conditional.md section 2; the form of the operation D32). -/
def Obligations.CorMergesWhenTheConditionHolds : Prop :=
  ∀ (d s1 : Reg) (c : Cond) (s : State),
    (encode (.cor d s1 c)).toNat = c.code.toNat * 2 ^ 12 + s1.val * 2 ^ 8 + d.val * 2 ^ 4 + 0xB ∧
    ((condEval c s).1 = true → ∃ t, exec (.cor d s1 c) s = .next t ∧
      t.readReg d = s.readReg d ||| s.readReg s1 ∧ t.flags = s.flags ∧ KeepsAllBut [d] s t) ∧
    ((condEval c s).1 = false → ¬ InvalidCode c → exec (.cor d s1 c) s = .next s) ∧
    (InvalidCode c → exec (.cor d s1 c) s = .next { s with fault := true })

/-- CXOR (43_conditional.md section 2; the form of the operation D32). -/
def Obligations.CxorTogglesWhenTheConditionHolds : Prop :=
  ∀ (d s1 : Reg) (c : Cond) (s : State),
    (encode (.cxor d s1 c)).toNat = c.code.toNat * 2 ^ 12 + s1.val * 2 ^ 8 + d.val * 2 ^ 4 + 0xC ∧
    ((condEval c s).1 = true → ∃ t, exec (.cxor d s1 c) s = .next t ∧
      t.readReg d = s.readReg d ^^^ s.readReg s1 ∧ t.flags = s.flags ∧ KeepsAllBut [d] s t) ∧
    ((condEval c s).1 = false → ¬ InvalidCode c → exec (.cxor d s1 c) s = .next s) ∧
    (InvalidCode c → exec (.cxor d s1 c) s = .next { s with fault := true })

/-! The reserved opcode, pseudo-instructions and the idle loop. -/

/-- R118, RSV: no effect, whatever its operand; a step at it only advances x[0] by 2 and counts it. -/
def Obligations.ReservedOpcodeDoesNothing : Prop :=
  ∀ (imm12 : BitVec 12) (s : State),
    (encode (.rsv imm12)).toNat = imm12.toNat * 2 ^ 4 + 0xF ∧ exec (.rsv imm12) s = .next s ∧
    ∀ (w : HalfWord) (u : State), s.Ready → s.fault = false → s.boundsFault = false → fetch s = .ok (w, u) →
      decodeWord w = .rsv imm12 → ∃ t, step s = .next t ∧ t.pc = s.pc + 2 ∧ t.flags = s.flags ∧
        t.retired = s.retired + 1 ∧ t.loop = .running ∧ KeepsRegsBut [0] s t ∧ KeepsMemory s t

/-- The pseudo-instructions have the effects their table gives (30_encoding.md section 7, the spec's own notation D26). -/
def Obligations.PseudoInstructionsHaveTheirEffects : Prop :=
  ∀ (d r : Reg) (c : Cond) (a : BitVec 5) (s : State),
    exec Instr.nop s = .next s ∧
    exec (Instr.mov d r) s = .next (s.writeReg d (s.readReg r)) ∧
    exec (Instr.clr d) s = .next (s.writeReg d 0) ∧
    exec (Instr.getpc d) s = .next (s.writeReg d s.pc) ∧
    exec (Instr.jmp r) s = .next (s.writeReg 0 (s.readReg r)) ∧
    (s.cfg.flagMode = .none → exec (Instr.jrel r) s = .next (s.writeReg 0 (s.pc + s.readReg r))) ∧
    ((condEval c s).1 = true → exec (Instr.br c r) s = .next (s.writeReg 0 (s.pc + s.readReg r))) ∧
    (s.cfg.shiftSelect = .instruction →
      exec (Instr.shli d a) s = .next (s.writeReg d (shl (s.readReg d) a.toNat)) ∧
      exec (Instr.srli d a) s = .next (s.writeReg d (srl (s.readReg d) a.toNat)) ∧
      exec (Instr.srai d a) s = .next (s.writeReg d (sar s.cfg.sarFill (s.readReg d) a.toNat)))

/-- A jump to itself in plain memory, `SUB r0, r0, rK` with x[K] = 2, is an idle loop with FLAG_MODE = `none`
(70_reset_and_hazards.md section 5; idle states are the spec's own, D27). -/
def Obligations.JumpToSelfIsIdle : Prop :=
  ∀ (r : Reg) (s : State), s.Ready → s.fault = false → s.boundsFault = false → s.cfg.flagMode = .none →
    r ≠ 0 → s.readReg r = 2 → s.pc.toNat + 1 < 0xFF00 →
    decode [s.mem.read s.pc.toNat, s.mem.read (s.pc.toNat + 1)] = .ok (.sub 0 0 r, []) → s.Idle
end

