-- ==== Sys2Proof/Laws/Encoding.lean ====
section
/-! SUPPORT. The fields of an encoded word (spec/30_encoding.md R52 to R54): each field of each format gives back what the
encoder put there. -/

namespace Sys2Proof

/-- A bit of a placed field. -/
theorem place_getLsbD {n : Nat} (f : BitVec n) (lsb i : Nat) :
    (place f lsb).getLsbD i = (decide (lsb ≤ i) && decide (i < 16) && f.getLsbD (i - lsb)) := by
  simp only [place, BitVec.getLsbD_shiftLeft, BitVec.getLsbD_setWidth]
  have h3 : i < 16 → i - lsb < 16 := by omega
  by_cases h1 : i < 16
  · by_cases h2 : lsb ≤ i
    · simp [h1, h2, h3 h1]
    · simp [h1, h2]
  · simp [h1]

theorem ofCode_code (c : Cond) : Cond.ofCode c.code = c := by cases c <;> rfl

theorem code_ofCode (b : BitVec 4) : (Cond.ofCode b).code = b := by revert b; decide

/-! Format R. -/

theorem opField_encodeR (s2 s1 d : Reg) (op : BitVec 4) : opField (encodeR s2 s1 d op) = op := by
  have h : (encodeR s2 s1 d op).extractLsb' 0 4 = op := by
    ext i hi; simp only [encodeR, BitVec.getElem_extractLsb', BitVec.getLsbD_or, place_getLsbD]; interval_cases i <;> simp
  exact h
theorem dField_encodeR (s2 s1 d : Reg) (op : BitVec 4) : dField (encodeR s2 s1 d op) = d := by
  have h : (encodeR s2 s1 d op).extractLsb' 4 4 = Reg.field d := by
    ext i hi; simp only [encodeR, BitVec.getElem_extractLsb', BitVec.getLsbD_or, place_getLsbD]; interval_cases i <;> simp
  rw [dField, h]; rfl
theorem s1Field_encodeR (s2 s1 d : Reg) (op : BitVec 4) : s1Field (encodeR s2 s1 d op) = s1 := by
  have h : (encodeR s2 s1 d op).extractLsb' 8 4 = Reg.field s1 := by
    ext i hi; simp only [encodeR, BitVec.getElem_extractLsb', BitVec.getLsbD_or, place_getLsbD]; interval_cases i <;> simp
  rw [s1Field, h]; rfl
theorem s2Field_encodeR (s2 s1 d : Reg) (op : BitVec 4) : s2Field (encodeR s2 s1 d op) = s2 := by
  have h : (encodeR s2 s1 d op).extractLsb' 12 4 = Reg.field s2 := by
    ext i hi; simp only [encodeR, BitVec.getElem_extractLsb', BitVec.getLsbD_or, place_getLsbD]; interval_cases i <;> simp
  rw [s2Field, h]; rfl

/-! Format SI. -/

theorem opField_encodeSI (sel : BitVec 2) (imm : BitVec 5) (d : Reg) : opField (encodeSI sel imm d) = 5#4 := by
  have h : (encodeSI sel imm d).extractLsb' 0 4 = 5#4 := by
    ext i hi; simp only [encodeSI, BitVec.getElem_extractLsb', BitVec.getLsbD_or, place_getLsbD]; interval_cases i <;> simp
  exact h
theorem dField_encodeSI (sel : BitVec 2) (imm : BitVec 5) (d : Reg) : dField (encodeSI sel imm d) = d := by
  have h : (encodeSI sel imm d).extractLsb' 4 4 = Reg.field d := by
    ext i hi; simp only [encodeSI, BitVec.getElem_extractLsb', BitVec.getLsbD_or, place_getLsbD]; interval_cases i <;> simp
  rw [dField, h]; rfl
theorem immField_encodeSI (sel : BitVec 2) (imm : BitVec 5) (d : Reg) : immField (encodeSI sel imm d) = imm := by
  have h : (encodeSI sel imm d).extractLsb' 8 5 = imm := by
    ext i hi; simp only [encodeSI, BitVec.getElem_extractLsb', BitVec.getLsbD_or, place_getLsbD]; interval_cases i <;> simp
  exact h
theorem selField_encodeSI (sel : BitVec 2) (imm : BitVec 5) (d : Reg) : selField (encodeSI sel imm d) = sel := by
  have h : (encodeSI sel imm d).extractLsb' 13 2 = sel := by
    ext i hi; simp only [encodeSI, BitVec.getElem_extractLsb', BitVec.getLsbD_or, place_getLsbD]; interval_cases i <;> simp
  exact h
theorem modeField_encodeSI (sel : BitVec 2) (imm : BitVec 5) (d : Reg) : modeField (encodeSI sel imm d) = false := by
  simp only [modeField, encodeSI, BitVec.getLsbD_or, place_getLsbD]; simp

/-! Format SR. -/

theorem opField_encodeSR (sel : BitVec 2) (s1 d : Reg) : opField (encodeSR sel s1 d) = 5#4 := by
  have h : (encodeSR sel s1 d).extractLsb' 0 4 = 5#4 := by
    ext i hi; simp only [encodeSR, BitVec.getElem_extractLsb', BitVec.getLsbD_or, place_getLsbD]; interval_cases i <;> simp
  exact h
theorem dField_encodeSR (sel : BitVec 2) (s1 d : Reg) : dField (encodeSR sel s1 d) = d := by
  have h : (encodeSR sel s1 d).extractLsb' 4 4 = Reg.field d := by
    ext i hi; simp only [encodeSR, BitVec.getElem_extractLsb', BitVec.getLsbD_or, place_getLsbD]; interval_cases i <;> simp
  rw [dField, h]; rfl
theorem s1Field_encodeSR (sel : BitVec 2) (s1 d : Reg) : s1Field (encodeSR sel s1 d) = s1 := by
  have h : (encodeSR sel s1 d).extractLsb' 8 4 = Reg.field s1 := by
    ext i hi; simp only [encodeSR, BitVec.getElem_extractLsb', BitVec.getLsbD_or, place_getLsbD]; interval_cases i <;> simp
  rw [s1Field, h]; rfl
theorem selField_encodeSR (sel : BitVec 2) (s1 d : Reg) : selField (encodeSR sel s1 d) = sel := by
  have h : (encodeSR sel s1 d).extractLsb' 13 2 = sel := by
    ext i hi; simp only [encodeSR, BitVec.getElem_extractLsb', BitVec.getLsbD_or, place_getLsbD]; interval_cases i <;> simp
  exact h
theorem modeField_encodeSR (sel : BitVec 2) (s1 d : Reg) : modeField (encodeSR sel s1 d) = true := by
  simp only [modeField, encodeSR, BitVec.getLsbD_or, place_getLsbD]; simp

/-! Format M. -/

theorem opField_encodeM (n : Nat) (k : Bool) (s1 d : Reg) (op : BitVec 4) : opField (encodeM n k s1 d op) = op := by
  have h : (encodeM n k s1 d op).extractLsb' 0 4 = op := by
    ext i hi; simp only [encodeM, BitVec.getElem_extractLsb', BitVec.getLsbD_or, place_getLsbD]; interval_cases i <;> simp
  exact h
theorem dField_encodeM (n : Nat) (k : Bool) (s1 d : Reg) (op : BitVec 4) : dField (encodeM n k s1 d op) = d := by
  have h : (encodeM n k s1 d op).extractLsb' 4 4 = Reg.field d := by
    ext i hi; simp only [encodeM, BitVec.getElem_extractLsb', BitVec.getLsbD_or, place_getLsbD]; interval_cases i <;> simp
  rw [dField, h]; rfl
theorem s1Field_encodeM (n : Nat) (k : Bool) (s1 d : Reg) (op : BitVec 4) : s1Field (encodeM n k s1 d op) = s1 := by
  have h : (encodeM n k s1 d op).extractLsb' 8 4 = Reg.field s1 := by
    ext i hi; simp only [encodeM, BitVec.getElem_extractLsb', BitVec.getLsbD_or, place_getLsbD]; interval_cases i <;> simp
  rw [s1Field, h]; rfl
theorem countField_encodeM (n : Nat) (k : Bool) (s1 d : Reg) (op : BitVec 4) (h1 : 1 ≤ n) (h4 : n ≤ 4) : countField (encodeM n k s1 d op) = n := by
  have h : (encodeM n k s1 d op).extractLsb' 14 2 = BitVec.ofNat 2 (n - 1) := by
    ext i hi; simp only [encodeM, BitVec.getElem_extractLsb', BitVec.getLsbD_or, place_getLsbD]; interval_cases i <;> simp
  rw [countField, h, BitVec.toNat_ofNat]; omega
theorem skipField_encodeM (n : Nat) (k : Bool) (s1 d : Reg) (op : BitVec 4) : skipField (encodeM n k s1 d op) = k := by
  simp only [skipField, encodeM, BitVec.getLsbD_or, place_getLsbD]; simp

/-! Format C. -/

theorem opField_encodeC (c : Cond) (s1 d : Reg) (op : BitVec 4) : opField (encodeC c s1 d op) = op := by
  have h : (encodeC c s1 d op).extractLsb' 0 4 = op := by
    ext i hi; simp only [encodeC, BitVec.getElem_extractLsb', BitVec.getLsbD_or, place_getLsbD]; interval_cases i <;> simp
  exact h
theorem dField_encodeC (c : Cond) (s1 d : Reg) (op : BitVec 4) : dField (encodeC c s1 d op) = d := by
  have h : (encodeC c s1 d op).extractLsb' 4 4 = Reg.field d := by
    ext i hi; simp only [encodeC, BitVec.getElem_extractLsb', BitVec.getLsbD_or, place_getLsbD]; interval_cases i <;> simp
  rw [dField, h]; rfl
theorem s1Field_encodeC (c : Cond) (s1 d : Reg) (op : BitVec 4) : s1Field (encodeC c s1 d op) = s1 := by
  have h : (encodeC c s1 d op).extractLsb' 8 4 = Reg.field s1 := by
    ext i hi; simp only [encodeC, BitVec.getElem_extractLsb', BitVec.getLsbD_or, place_getLsbD]; interval_cases i <;> simp
  rw [s1Field, h]; rfl
theorem condField_encodeC (c : Cond) (s1 d : Reg) (op : BitVec 4) : condField (encodeC c s1 d op) = c.code := by
  have h : (encodeC c s1 d op).extractLsb' 12 4 = c.code := by
    ext i hi; simp only [encodeC, BitVec.getElem_extractLsb', BitVec.getLsbD_or, place_getLsbD]; interval_cases i <;> simp
  exact h

/-! Format X. -/

theorem opField_encodeX (imm12 : BitVec 12) : opField (encodeX imm12) = 15#4 := by
  have h : (encodeX imm12).extractLsb' 0 4 = 15#4 := by
    ext i hi; simp only [encodeX, BitVec.getElem_extractLsb', BitVec.getLsbD_or, place_getLsbD]; interval_cases i <;> simp
  exact h
theorem rsvField_encodeX (imm12 : BitVec 12) : rsvField (encodeX imm12) = imm12 := by
  have h : (encodeX imm12).extractLsb' 4 12 = imm12 := by
    ext i hi; simp only [encodeX, BitVec.getElem_extractLsb', BitVec.getLsbD_or, place_getLsbD]; interval_cases i <;> simp
  exact h

/-! The two bytes of a word (R58). -/

theorem wordOfBytes_getLsbD (lo hi : Byte) (i : Nat) :
    (wordOfBytes lo hi).getLsbD i = if i < 8 then lo.getLsbD i else hi.getLsbD (i - 8) := by
  unfold wordOfBytes
  rw [BitVec.getLsbD_append]

theorem wordOfBytes_low (lo hi : Byte) : (wordOfBytes lo hi).extractLsb' 0 8 = lo := by
  refine BitVec.eq_of_getLsbD_eq fun i h => ?_
  rw [BitVec.getLsbD_extractLsb', wordOfBytes_getLsbD, Nat.zero_add, if_pos h, decide_eq_true h, Bool.true_and]

theorem wordOfBytes_high (lo hi : Byte) : (wordOfBytes lo hi).extractLsb' 8 8 = hi := by
  refine BitVec.eq_of_getLsbD_eq fun i h => ?_
  rw [BitVec.getLsbD_extractLsb', wordOfBytes_getLsbD, if_neg (by omega), Nat.add_sub_cancel_left, decide_eq_true h,
    Bool.true_and]

/-- The bytes of a word make the word again. -/
theorem wordOfBytes_of_word (w : HalfWord) : wordOfBytes (w.extractLsb' 0 8) (w.extractLsb' 8 8) = w := by
  refine BitVec.eq_of_getLsbD_eq fun i h => ?_
  rw [wordOfBytes_getLsbD]
  split
  · next hi => simp [hi]
  · next hi => simp only [BitVec.getLsbD_extractLsb', Nat.add_sub_cancel' (Nat.le_of_not_lt hi)]; simp; omega

/-- The instruction of a word, read back from its bytes. -/
theorem decode_bytesOfWord (w : HalfWord) (rest : List Byte) :
    decode (bytesOfWord w ++ rest) = .ok (decodeWord w, rest) := by
  simp only [bytesOfWord, List.cons_append, List.nil_append, decode, wordOfBytes_of_word]

/-! A word put together again from its fields. -/

/-- A bit of a word with bit 12 cleared. -/
theorem clear12_getLsbD (w : HalfWord) {i : Nat} (hi : i < 16) :
    (w &&& ~~~0x1000#16).getLsbD i = (w.getLsbD i && decide (i ≠ 12)) := by
  simp only [BitVec.getLsbD_and, BitVec.getLsbD_not]
  interval_cases i <;> simp

/-- Format R. -/
theorem encodeR_fields (w : HalfWord) {op : BitVec 4} (h : opField w = op) :
    encodeR (s2Field w) (s1Field w) (dField w) op = w := by
  subst h
  apply BitVec.eq_of_getLsbD_eq
  intro i hi
  simp only [encodeR, BitVec.getLsbD_or, place_getLsbD, Reg.field, s2Field, s1Field, dField, opField,
    BitVec.ofFin_toFin, BitVec.getLsbD_extractLsb']
  interval_cases i <;> simp

/-- Format C. -/
theorem encodeC_fields (w : HalfWord) {op : BitVec 4} (h : opField w = op) :
    encodeC (Cond.ofCode (condField w)) (s1Field w) (dField w) op = w := by
  rw [encodeC, code_ofCode]
  subst h
  apply BitVec.eq_of_getLsbD_eq
  intro i hi
  simp only [BitVec.getLsbD_or, place_getLsbD, Reg.field, condField, s1Field, dField, opField, BitVec.ofFin_toFin,
    BitVec.getLsbD_extractLsb']
  interval_cases i <;> simp

/-- Format X. -/
theorem encodeX_fields (w : HalfWord) (h : opField w = 15#4) : encodeX (rsvField w) = w := by
  unfold encodeX
  rw [← h]
  apply BitVec.eq_of_getLsbD_eq
  intro i hi
  simp only [BitVec.getLsbD_or, place_getLsbD, rsvField, opField, BitVec.getLsbD_extractLsb']
  interval_cases i <;> simp

/-- Format M, the ignored bit 12 cleared. -/
theorem encodeM_fields (w : HalfWord) {op : BitVec 4} (h : opField w = op) :
    encodeM (countField w) (skipField w) (s1Field w) (dField w) op = w &&& ~~~0x1000#16 := by
  subst h
  apply BitVec.eq_of_getLsbD_eq
  intro i hi
  rw [clear12_getLsbD w hi]
  have hn : BitVec.ofNat 2 (countField w - 1) = w.extractLsb' 14 2 := by
    simp only [countField, Nat.add_sub_cancel]
    exact BitVec.ofNat_toNat ..
  simp only [encodeM, hn, BitVec.getLsbD_or, place_getLsbD, Reg.field, skipField, s1Field, dField, opField,
    BitVec.ofFin_toFin, BitVec.getLsbD_extractLsb']
  interval_cases i <;> simp

/-- Format SI. -/
theorem encodeSI_fields (w : HalfWord) (h : opField w = 5#4) (hm : modeField w = false) :
    encodeSI (selField w) (immField w) (dField w) = w := by
  unfold encodeSI
  rw [← h]
  apply BitVec.eq_of_getLsbD_eq
  intro i hi
  unfold modeField at hm
  simp only [BitVec.getLsbD_or, place_getLsbD, Reg.field, selField, immField, dField, opField, BitVec.ofFin_toFin,
    BitVec.getLsbD_extractLsb']
  interval_cases i <;> simp
  simpa using hm.symm

/-- Format SR, the ignored bit 12 cleared. -/
theorem encodeSR_fields (w : HalfWord) (h : opField w = 5#4) (hm : modeField w = true) :
    encodeSR (selField w) (s1Field w) (dField w) = w &&& ~~~0x1000#16 := by
  unfold encodeSR
  rw [← h]
  apply BitVec.eq_of_getLsbD_eq
  intro i hi
  rw [clear12_getLsbD w hi]
  unfold modeField at hm
  simp only [BitVec.getLsbD_or, place_getLsbD, Reg.field, selField, s1Field, dField, opField, BitVec.ofFin_toFin,
    BitVec.getLsbD_extractLsb']
  interval_cases i <;> simp
  simpa using hm.symm

end Sys2Proof
end

