-- ==== Sys2Proof/Laws/Memory.lean ====
section
/-! SUPPORT. Plain memory: a read after a write, and that a write keeps the canonical form and the visible range. -/

namespace Sys2Proof.Machine

@[simp] theorem Memory.read_nil (a : Nat) : Memory.read [] a = Memory.unlisted := rfl

theorem Memory.wf_nil : Memory.wf [] := by simp [Memory.wf]

theorem Memory.wf_tail {p : Host.Cell} {m : Memory} (h : Memory.wf (p :: m)) : m.wf :=
  ⟨(List.pairwise_cons.1 h.1).2, fun q hq => h.2 q (List.mem_cons_of_mem _ hq)⟩

/-- Below the first listed address a canonical memory reads as unlisted. -/
theorem Memory.read_below {m : Memory} {a : Nat} (h : ∀ p ∈ m, a < p.1) : m.read a = Memory.unlisted := by
  induction m with
  | nil => rfl
  | cons p m ih =>
    have hp := h p List.mem_cons_self
    rw [Memory.read, if_neg (by omega), ih fun q hq => h q (List.mem_cons_of_mem _ hq)]

/-- What a memory reads as after a byte was put before it. -/
theorem Memory.read_cons {m : Memory} {a : Nat} (h : ∀ p ∈ m, a < p.1) (b : Byte) (x : Nat) :
    (Memory.cons a b m).read x = if x = a then b else m.read x := by
  unfold Memory.cons
  split
  · next hb => split
               · next hx => rw [hx, Memory.read_below h, hb]
               · rfl
  · rw [Memory.read]; simp only [eq_comm]

/-- One spec of `Memory.write`: the byte written reads back, every other byte reads as before. -/
theorem Memory.read_write {m : Memory} (h : m.wf) (a : Nat) (b : Byte) (x : Nat) :
    (m.write a b).read x = if x = a then b else m.read x := by
  induction m with
  | nil => exact Memory.read_cons (by simp) b x
  | cons p m ih =>
    obtain ⟨k, c⟩ := p
    have hk := (List.pairwise_cons.1 h.1).1
    simp only [Memory.write]
    split
    · exact Memory.read_cons (by intro q hq; rcases List.mem_cons.1 hq with rfl | hq; · assumption
                                 · have := hk q hq; simp only at this; omega) b x
    · split
      · next hlt heq =>
        subst heq
        rw [Memory.read_cons hk, Memory.read]
        by_cases hx : x = a
        · simp [hx]
        · simp [hx, Ne.symm hx]
      · rw [Memory.read, Memory.read, ih (Memory.wf_tail h)]
        split <;> split <;> first | rfl | omega

/-- A byte that a write lists is the byte written or was listed before. -/
theorem Memory.mem_write {m : Memory} {a : Nat} {b : Byte} {q : Host.Cell} (h : q ∈ m.write a b) :
    (q = (a, b) ∧ b ≠ Memory.unlisted) ∨ q ∈ m := by
  induction m with
  | nil =>
    rw [Memory.write, Memory.cons] at h
    split at h <;> simp_all
  | cons p m ih =>
    simp only [Memory.write, Memory.cons] at h
    split at h
    · split at h <;> simp_all
    · split at h
      · split at h
        · simp_all
        · simp_all; tauto
      · rcases List.mem_cons.1 h with rfl | h
        · simp
        · rcases ih h with h | h <;> simp [h]

/-- A write keeps the canonical form. -/
theorem Memory.write_wf {m : Memory} (h : m.wf) (a : Nat) (b : Byte) : (m.write a b).wf := by
  refine ⟨?_, fun q hq => ?_⟩
  · induction m with
    | nil => rw [Memory.write, Memory.cons]; split <;> simp
    | cons p m ih =>
      have hk := (List.pairwise_cons.1 h.1)
      simp only [Memory.write, Memory.cons]
      split
      · split
        · exact h.1
        · refine List.pairwise_cons.2 ⟨fun q hq => ?_, h.1⟩
          rcases List.mem_cons.1 hq with rfl | hq
          · assumption
          · have := hk.1 q hq; simp only at this ⊢; omega
      · split
        · split
          · exact hk.2
          · next heq _ => subst heq; exact List.pairwise_cons.2 ⟨hk.1, hk.2⟩
        · refine List.pairwise_cons.2 ⟨fun q hq => ?_, ih (Memory.wf_tail h)⟩
          rcases Memory.mem_write hq with ⟨rfl, _⟩ | hq
          · simp only; omega
          · exact hk.1 q hq
  · rcases Memory.mem_write hq with ⟨rfl, hb⟩ | hq
    · exact hb
    · exact h.2 q hq

/-- A write below 0xFF00 lists visible bytes only. -/
theorem Memory.write_visible {m : Memory} (h : m.Visible) {a : Nat} (ha : a < 0xFF00) (b : Byte) :
    (m.write a b).Visible := by
  intro q hq
  rcases Memory.mem_write hq with ⟨rfl, _⟩ | hq
  · exact ha
  · exact h q hq

/-- A canonical memory lists exactly the bytes that differ from an unlisted one, so equal reads mean equal memories. -/
theorem Memory.ext_read {m n : Memory} (hm : m.wf) (hn : n.wf) (h : ∀ a, m.read a = n.read a) : m = n := by
  induction m generalizing n with
  | nil =>
    cases n with
    | nil => rfl
    | cons q n =>
      have := h q.1
      rw [Memory.read_nil, Memory.read, if_pos rfl] at this
      exact absurd this.symm (hn.2 q List.mem_cons_self)
  | cons p m ih =>
    have hpm := (List.pairwise_cons.1 hm.1).1
    cases n with
    | nil =>
      have := h p.1
      rw [Memory.read_nil, Memory.read, if_pos rfl] at this
      exact absurd this (hm.2 p List.mem_cons_self)
    | cons q n =>
      have hqn := (List.pairwise_cons.1 hn.1).1
      have hp := hm.2 p List.mem_cons_self
      have hq := hn.2 q List.mem_cons_self
      have hkey : p.1 = q.1 := by
        rcases Nat.lt_trichotomy p.1 q.1 with hlt | heq | hlt
        · have := h p.1
          rw [Memory.read, if_pos rfl, Memory.read_below (m := q :: n)] at this
          · exact absurd this hp
          · intro r hr; rcases List.mem_cons.1 hr with rfl | hr
            · exact hlt
            · exact hlt.trans (hqn r hr)
        · exact heq
        · have := h q.1
          rw [Memory.read_below (m := p :: m), Memory.read, if_pos rfl] at this
          · exact absurd this.symm hq
          · intro r hr; rcases List.mem_cons.1 hr with rfl | hr
            · exact hlt
            · exact hlt.trans (hpm r hr)
      have hbyte : p.2 = q.2 := by
        have := h p.1
        rwa [Memory.read, if_pos rfl, Memory.read, if_pos hkey.symm] at this
      have htail : m = n := by
        refine ih (Memory.wf_tail hm) (Memory.wf_tail hn) fun a => ?_
        by_cases ha : p.1 = a
        · rw [Memory.read_below fun r hr => ha ▸ hpm r hr, Memory.read_below fun r hr => ha ▸ hkey ▸ hqn r hr]
        · have := h a
          rwa [Memory.read, if_neg ha, Memory.read, if_neg (hkey ▸ ha)] at this
      rw [htail, Prod.ext hkey hbyte]

end Sys2Proof.Machine
end

