-- ==== Sys2Proof/Laws/State.lean ====
section
/-! SUPPORT. What each update of the state does to each field: one lemma per field per update.  The fields an update
computes (the registers, the display, LOOP) have their lemmas in Sys2Proof/Laws/Ops.lean. -/

namespace Sys2Proof.Machine

/-! `State.writeReg`. -/

@[simp] theorem State.writeReg_cfg (s : State) (r : Reg) (v : Word) : (s.writeReg r v).cfg = s.cfg := rfl
@[simp] theorem State.writeReg_flags (s : State) (r : Reg) (v : Word) : (s.writeReg r v).flags = s.flags := rfl
@[simp] theorem State.writeReg_fault (s : State) (r : Reg) (v : Word) : (s.writeReg r v).fault = s.fault := rfl
@[simp] theorem State.writeReg_boundsFault (s : State) (r : Reg) (v : Word) : (s.writeReg r v).boundsFault = s.boundsFault := rfl
@[simp] theorem State.writeReg_boundsAddr (s : State) (r : Reg) (v : Word) : (s.writeReg r v).boundsAddr = s.boundsAddr := rfl
@[simp] theorem State.writeReg_loop (s : State) (r : Reg) (v : Word) : (s.writeReg r v).loop = s.loop := rfl
@[simp] theorem State.writeReg_mem (s : State) (r : Reg) (v : Word) : (s.writeReg r v).mem = s.mem := rfl
@[simp] theorem State.writeReg_display (s : State) (r : Reg) (v : Word) : (s.writeReg r v).display = s.display := rfl
@[simp] theorem State.writeReg_retired (s : State) (r : Reg) (v : Word) : (s.writeReg r v).retired = s.retired := rfl
@[simp] theorem State.writeReg_refused (s : State) (r : Reg) (v : Word) : (s.writeReg r v).refused = s.refused := rfl
@[simp] theorem State.writeReg_draws (s : State) (r : Reg) (v : Word) : (s.writeReg r v).draws = s.draws := rfl

/-! `State.addPc`. -/

@[simp] theorem State.addPc_cfg (s : State) (n : Word) : (s.addPc n).cfg = s.cfg := rfl
@[simp] theorem State.addPc_flags (s : State) (n : Word) : (s.addPc n).flags = s.flags := rfl
@[simp] theorem State.addPc_fault (s : State) (n : Word) : (s.addPc n).fault = s.fault := rfl
@[simp] theorem State.addPc_boundsFault (s : State) (n : Word) : (s.addPc n).boundsFault = s.boundsFault := rfl
@[simp] theorem State.addPc_boundsAddr (s : State) (n : Word) : (s.addPc n).boundsAddr = s.boundsAddr := rfl
@[simp] theorem State.addPc_loop (s : State) (n : Word) : (s.addPc n).loop = s.loop := rfl
@[simp] theorem State.addPc_mem (s : State) (n : Word) : (s.addPc n).mem = s.mem := rfl
@[simp] theorem State.addPc_display (s : State) (n : Word) : (s.addPc n).display = s.display := rfl
@[simp] theorem State.addPc_retired (s : State) (n : Word) : (s.addPc n).retired = s.retired := rfl
@[simp] theorem State.addPc_refused (s : State) (n : Word) : (s.addPc n).refused = s.refused := rfl
@[simp] theorem State.addPc_draws (s : State) (n : Word) : (s.addPc n).draws = s.draws := rfl

/-! `State.nextDraw`. -/

@[simp] theorem State.nextDraw_cfg (s : State) : (s.nextDraw).cfg = s.cfg := rfl
@[simp] theorem State.nextDraw_regs (s : State) : (s.nextDraw).regs = s.regs := rfl
@[simp] theorem State.nextDraw_flags (s : State) : (s.nextDraw).flags = s.flags := rfl
@[simp] theorem State.nextDraw_fault (s : State) : (s.nextDraw).fault = s.fault := rfl
@[simp] theorem State.nextDraw_boundsFault (s : State) : (s.nextDraw).boundsFault = s.boundsFault := rfl
@[simp] theorem State.nextDraw_boundsAddr (s : State) : (s.nextDraw).boundsAddr = s.boundsAddr := rfl
@[simp] theorem State.nextDraw_loop (s : State) : (s.nextDraw).loop = s.loop := rfl
@[simp] theorem State.nextDraw_mem (s : State) : (s.nextDraw).mem = s.mem := rfl
@[simp] theorem State.nextDraw_display (s : State) : (s.nextDraw).display = s.display := rfl
@[simp] theorem State.nextDraw_retired (s : State) : (s.nextDraw).retired = s.retired := rfl
@[simp] theorem State.nextDraw_refused (s : State) : (s.nextDraw).refused = s.refused := rfl
@[simp] theorem State.nextDraw_draws (s : State) : (s.nextDraw).draws = s.draws + 1 := rfl

/-! `State.setPixel`. -/

@[simp] theorem State.setPixel_cfg (s : State) (row column : Fin 5) (b : Byte) : (s.setPixel row column b).cfg = s.cfg := rfl
@[simp] theorem State.setPixel_regs (s : State) (row column : Fin 5) (b : Byte) : (s.setPixel row column b).regs = s.regs := rfl
@[simp] theorem State.setPixel_flags (s : State) (row column : Fin 5) (b : Byte) : (s.setPixel row column b).flags = s.flags := rfl
@[simp] theorem State.setPixel_fault (s : State) (row column : Fin 5) (b : Byte) : (s.setPixel row column b).fault = s.fault := rfl
@[simp] theorem State.setPixel_boundsFault (s : State) (row column : Fin 5) (b : Byte) : (s.setPixel row column b).boundsFault = s.boundsFault := rfl
@[simp] theorem State.setPixel_boundsAddr (s : State) (row column : Fin 5) (b : Byte) : (s.setPixel row column b).boundsAddr = s.boundsAddr := rfl
@[simp] theorem State.setPixel_loop (s : State) (row column : Fin 5) (b : Byte) : (s.setPixel row column b).loop = s.loop := rfl
@[simp] theorem State.setPixel_mem (s : State) (row column : Fin 5) (b : Byte) : (s.setPixel row column b).mem = s.mem := rfl
@[simp] theorem State.setPixel_retired (s : State) (row column : Fin 5) (b : Byte) : (s.setPixel row column b).retired = s.retired := rfl
@[simp] theorem State.setPixel_refused (s : State) (row column : Fin 5) (b : Byte) : (s.setPixel row column b).refused = s.refused := rfl
@[simp] theorem State.setPixel_draws (s : State) (row column : Fin 5) (b : Byte) : (s.setPixel row column b).draws = s.draws := rfl

/-! `raiseOutOfBounds`. -/

@[simp] theorem raiseOutOfBounds_cfg (s : State) (a : Word) : (raiseOutOfBounds a s).cfg = s.cfg := rfl
@[simp] theorem raiseOutOfBounds_regs (s : State) (a : Word) : (raiseOutOfBounds a s).regs = s.regs := rfl
@[simp] theorem raiseOutOfBounds_flags (s : State) (a : Word) : (raiseOutOfBounds a s).flags = s.flags := rfl
@[simp] theorem raiseOutOfBounds_fault (s : State) (a : Word) : (raiseOutOfBounds a s).fault = s.fault := rfl
@[simp] theorem raiseOutOfBounds_boundsFault (s : State) (a : Word) : (raiseOutOfBounds a s).boundsFault = true := rfl
@[simp] theorem raiseOutOfBounds_boundsAddr (s : State) (a : Word) : (raiseOutOfBounds a s).boundsAddr = a := rfl
@[simp] theorem raiseOutOfBounds_loop (s : State) (a : Word) : (raiseOutOfBounds a s).loop = s.loop := rfl
@[simp] theorem raiseOutOfBounds_mem (s : State) (a : Word) : (raiseOutOfBounds a s).mem = s.mem := rfl
@[simp] theorem raiseOutOfBounds_display (s : State) (a : Word) : (raiseOutOfBounds a s).display = s.display := rfl
@[simp] theorem raiseOutOfBounds_retired (s : State) (a : Word) : (raiseOutOfBounds a s).retired = s.retired := rfl
@[simp] theorem raiseOutOfBounds_refused (s : State) (a : Word) : (raiseOutOfBounds a s).refused = s.refused := rfl
@[simp] theorem raiseOutOfBounds_draws (s : State) (a : Word) : (raiseOutOfBounds a s).draws = s.draws := rfl

/-! `raiseInvalidCondition`. -/

@[simp] theorem raiseInvalidCondition_cfg (s : State) : (raiseInvalidCondition s).cfg = s.cfg := rfl
@[simp] theorem raiseInvalidCondition_regs (s : State) : (raiseInvalidCondition s).regs = s.regs := rfl
@[simp] theorem raiseInvalidCondition_flags (s : State) : (raiseInvalidCondition s).flags = s.flags := rfl
@[simp] theorem raiseInvalidCondition_fault (s : State) : (raiseInvalidCondition s).fault = true := rfl
@[simp] theorem raiseInvalidCondition_boundsFault (s : State) : (raiseInvalidCondition s).boundsFault = s.boundsFault := rfl
@[simp] theorem raiseInvalidCondition_boundsAddr (s : State) : (raiseInvalidCondition s).boundsAddr = s.boundsAddr := rfl
@[simp] theorem raiseInvalidCondition_loop (s : State) : (raiseInvalidCondition s).loop = s.loop := rfl
@[simp] theorem raiseInvalidCondition_mem (s : State) : (raiseInvalidCondition s).mem = s.mem := rfl
@[simp] theorem raiseInvalidCondition_display (s : State) : (raiseInvalidCondition s).display = s.display := rfl
@[simp] theorem raiseInvalidCondition_retired (s : State) : (raiseInvalidCondition s).retired = s.retired := rfl
@[simp] theorem raiseInvalidCondition_refused (s : State) : (raiseInvalidCondition s).refused = s.refused := rfl
@[simp] theorem raiseInvalidCondition_draws (s : State) : (raiseInvalidCondition s).draws = s.draws := rfl

/-! `refuseShift`. -/

@[simp] theorem refuseShift_cfg (s : State) (d : Reg) : (refuseShift d s).cfg = s.cfg := rfl
@[simp] theorem refuseShift_flags (s : State) (d : Reg) : (refuseShift d s).flags = s.flags := rfl
@[simp] theorem refuseShift_fault (s : State) (d : Reg) : (refuseShift d s).fault = s.fault := rfl
@[simp] theorem refuseShift_boundsFault (s : State) (d : Reg) : (refuseShift d s).boundsFault = s.boundsFault := rfl
@[simp] theorem refuseShift_boundsAddr (s : State) (d : Reg) : (refuseShift d s).boundsAddr = s.boundsAddr := rfl
@[simp] theorem refuseShift_loop (s : State) (d : Reg) : (refuseShift d s).loop = s.loop := rfl
@[simp] theorem refuseShift_mem (s : State) (d : Reg) : (refuseShift d s).mem = s.mem := rfl
@[simp] theorem refuseShift_display (s : State) (d : Reg) : (refuseShift d s).display = s.display := rfl
@[simp] theorem refuseShift_retired (s : State) (d : Reg) : (refuseShift d s).retired = s.retired := rfl
@[simp] theorem refuseShift_refused (s : State) (d : Reg) : (refuseShift d s).refused = true := rfl
@[simp] theorem refuseShift_draws (s : State) (d : Reg) : (refuseShift d s).draws = s.draws + 1 := rfl

/-! `advance`. -/

@[simp] theorem advance_cfg (s : State) : (advance s).cfg = s.cfg := rfl
@[simp] theorem advance_flags (s : State) : (advance s).flags = s.flags := rfl
@[simp] theorem advance_fault (s : State) : (advance s).fault = s.fault := rfl
@[simp] theorem advance_boundsFault (s : State) : (advance s).boundsFault = s.boundsFault := rfl
@[simp] theorem advance_boundsAddr (s : State) : (advance s).boundsAddr = s.boundsAddr := rfl
@[simp] theorem advance_loop (s : State) : (advance s).loop = s.loop := rfl
@[simp] theorem advance_mem (s : State) : (advance s).mem = s.mem := rfl
@[simp] theorem advance_display (s : State) : (advance s).display = s.display := rfl
@[simp] theorem advance_retired (s : State) : (advance s).retired = s.retired + 1 := rfl
@[simp] theorem advance_refused (s : State) : (advance s).refused = s.refused := rfl
@[simp] theorem advance_draws (s : State) : (advance s).draws = s.draws := rfl

/-! `skip`. -/

@[simp] theorem skip_cfg (s : State) (k : Bool) : (skip k s).cfg = s.cfg := rfl
@[simp] theorem skip_flags (s : State) (k : Bool) : (skip k s).flags = s.flags := rfl
@[simp] theorem skip_fault (s : State) (k : Bool) : (skip k s).fault = s.fault := rfl
@[simp] theorem skip_boundsFault (s : State) (k : Bool) : (skip k s).boundsFault = s.boundsFault := rfl
@[simp] theorem skip_boundsAddr (s : State) (k : Bool) : (skip k s).boundsAddr = s.boundsAddr := rfl
@[simp] theorem skip_loop (s : State) (k : Bool) : (skip k s).loop = s.loop := rfl
@[simp] theorem skip_mem (s : State) (k : Bool) : (skip k s).mem = s.mem := rfl
@[simp] theorem skip_display (s : State) (k : Bool) : (skip k s).display = s.display := rfl
@[simp] theorem skip_retired (s : State) (k : Bool) : (skip k s).retired = s.retired := rfl
@[simp] theorem skip_refused (s : State) (k : Bool) : (skip k s).refused = s.refused := rfl
@[simp] theorem skip_draws (s : State) (k : Bool) : (skip k s).draws = s.draws := rfl

/-! `loadPrepared`. -/

@[simp] theorem loadPrepared_cfg (s : State) (d : Reg) (k : Bool) : (loadPrepared d k s).cfg = s.cfg := rfl
@[simp] theorem loadPrepared_flags (s : State) (d : Reg) (k : Bool) : (loadPrepared d k s).flags = s.flags := rfl
@[simp] theorem loadPrepared_fault (s : State) (d : Reg) (k : Bool) : (loadPrepared d k s).fault = s.fault := rfl
@[simp] theorem loadPrepared_boundsFault (s : State) (d : Reg) (k : Bool) : (loadPrepared d k s).boundsFault = s.boundsFault := rfl
@[simp] theorem loadPrepared_boundsAddr (s : State) (d : Reg) (k : Bool) : (loadPrepared d k s).boundsAddr = s.boundsAddr := rfl
@[simp] theorem loadPrepared_loop (s : State) (d : Reg) (k : Bool) : (loadPrepared d k s).loop = s.loop := rfl
@[simp] theorem loadPrepared_mem (s : State) (d : Reg) (k : Bool) : (loadPrepared d k s).mem = s.mem := rfl
@[simp] theorem loadPrepared_display (s : State) (d : Reg) (k : Bool) : (loadPrepared d k s).display = s.display := rfl
@[simp] theorem loadPrepared_retired (s : State) (d : Reg) (k : Bool) : (loadPrepared d k s).retired = s.retired := rfl
@[simp] theorem loadPrepared_refused (s : State) (d : Reg) (k : Bool) : (loadPrepared d k s).refused = s.refused := rfl
@[simp] theorem loadPrepared_draws (s : State) (d : Reg) (k : Bool) : (loadPrepared d k s).draws = s.draws := rfl

/-! `State.updateFlags`. -/

@[simp] theorem State.updateFlags_cfg (s : State) (f : Flags) : (s.updateFlags f).cfg = s.cfg := by
  unfold State.updateFlags; split <;> rfl
@[simp] theorem State.updateFlags_regs (s : State) (f : Flags) : (s.updateFlags f).regs = s.regs := by
  unfold State.updateFlags; split <;> rfl
@[simp] theorem State.updateFlags_fault (s : State) (f : Flags) : (s.updateFlags f).fault = s.fault := by
  unfold State.updateFlags; split <;> rfl
@[simp] theorem State.updateFlags_boundsFault (s : State) (f : Flags) : (s.updateFlags f).boundsFault = s.boundsFault := by
  unfold State.updateFlags; split <;> rfl
@[simp] theorem State.updateFlags_boundsAddr (s : State) (f : Flags) : (s.updateFlags f).boundsAddr = s.boundsAddr := by
  unfold State.updateFlags; split <;> rfl
@[simp] theorem State.updateFlags_loop (s : State) (f : Flags) : (s.updateFlags f).loop = s.loop := by
  unfold State.updateFlags; split <;> rfl
@[simp] theorem State.updateFlags_mem (s : State) (f : Flags) : (s.updateFlags f).mem = s.mem := by
  unfold State.updateFlags; split <;> rfl
@[simp] theorem State.updateFlags_display (s : State) (f : Flags) : (s.updateFlags f).display = s.display := by
  unfold State.updateFlags; split <;> rfl
@[simp] theorem State.updateFlags_retired (s : State) (f : Flags) : (s.updateFlags f).retired = s.retired := by
  unfold State.updateFlags; split <;> rfl
@[simp] theorem State.updateFlags_refused (s : State) (f : Flags) : (s.updateFlags f).refused = s.refused := by
  unfold State.updateFlags; split <;> rfl
@[simp] theorem State.updateFlags_draws (s : State) (f : Flags) : (s.updateFlags f).draws = s.draws := by
  unfold State.updateFlags; split <;> rfl

/-! `endStep`. -/

@[simp] theorem endStep_cfg (s : State) : (endStep s).cfg = s.cfg := by
  unfold endStep; split <;> [rfl; split <;> rfl]
@[simp] theorem endStep_regs (s : State) : (endStep s).regs = s.regs := by
  unfold endStep; split <;> [rfl; split <;> rfl]
@[simp] theorem endStep_flags (s : State) : (endStep s).flags = s.flags := by
  unfold endStep; split <;> [rfl; split <;> rfl]
@[simp] theorem endStep_fault (s : State) : (endStep s).fault = s.fault := by
  unfold endStep; split <;> [rfl; split <;> rfl]
@[simp] theorem endStep_boundsFault (s : State) : (endStep s).boundsFault = s.boundsFault := by
  unfold endStep; split <;> [rfl; split <;> rfl]
@[simp] theorem endStep_boundsAddr (s : State) : (endStep s).boundsAddr = s.boundsAddr := by
  unfold endStep; split <;> [rfl; split <;> rfl]
@[simp] theorem endStep_mem (s : State) : (endStep s).mem = s.mem := by
  unfold endStep; split <;> [rfl; split <;> rfl]
@[simp] theorem endStep_display (s : State) : (endStep s).display = s.display := by
  unfold endStep; split <;> [rfl; split <;> rfl]
@[simp] theorem endStep_retired (s : State) : (endStep s).retired = s.retired := by
  unfold endStep; split <;> [rfl; split <;> rfl]
@[simp] theorem endStep_refused (s : State) : (endStep s).refused = s.refused := by
  unfold endStep; split <;> [rfl; split <;> rfl]
@[simp] theorem endStep_draws (s : State) : (endStep s).draws = s.draws := by
  unfold endStep; split <;> [rfl; split <;> rfl]

end Sys2Proof.Machine
end

