-- ==== Sys2Proof/Laws/Ops.lean ====
section
/-! SUPPORT. One spec for each shared operation: registers, display cells, the multiplexer, accesses of several bytes, the
fetch and the end of a step. -/

namespace Sys2Proof.Machine

/-! Registers. -/

/-- What a register reads as after a write. -/
theorem State.readReg_writeReg (s : State) (r q : Reg) (v : Word) :
    (s.writeReg r v).readReg q = if q = r then v else s.readReg q := by
  simp only [State.readReg, State.writeReg, Fin.getElem_fin, Vector.getElem_set, Fin.ext_iff, eq_comm]

@[simp] theorem State.readReg_writeReg_same (s : State) (r : Reg) (v : Word) : (s.writeReg r v).readReg r = v := by
  simp [State.readReg_writeReg]

theorem State.readReg_writeReg_ne (s : State) {r q : Reg} (h : q ≠ r) (v : Word) :
    (s.writeReg r v).readReg q = s.readReg q := by
  simp [State.readReg_writeReg, h]

/-- Two states whose register files are equal read equal registers. -/
theorem State.readReg_congr {s t : State} (h : t.regs = s.regs) (r : Reg) : t.readReg r = s.readReg r := by
  simp only [State.readReg, h]

/-- Two states whose displays are equal show equal cells. -/
theorem State.getPixel_congr {s t : State} (h : t.display = s.display) (row column : Fin 5) :
    t.getPixel row column = s.getPixel row column := by
  simp only [State.getPixel, h]

/-- The register file is determined by its sixteen reads. -/
theorem State.regs_ext {s t : State} (h : ∀ r, t.readReg r = s.readReg r) : t.regs = s.regs := by
  refine Vector.ext fun i hi => ?_
  simpa [State.readReg] using h ⟨i, hi⟩

theorem State.writeReg_writeReg (s : State) (r : Reg) (v w : Word) : (s.writeReg r v).writeReg r w = s.writeReg r w := by
  simp [State.writeReg]

@[simp] theorem State.readReg_nextDraw (s : State) (r : Reg) : s.nextDraw.readReg r = s.readReg r := rfl
@[simp] theorem State.readReg_setPixel (s : State) (row column : Fin 5) (b : Byte) (r : Reg) :
    (s.setPixel row column b).readReg r = s.readReg r := rfl
@[simp] theorem State.readReg_updateFlags (s : State) (f : Flags) (r : Reg) :
    (s.updateFlags f).readReg r = s.readReg r := State.readReg_congr (by simp) r
@[simp] theorem readReg_raiseOutOfBounds (s : State) (a : Word) (r : Reg) :
    (raiseOutOfBounds a s).readReg r = s.readReg r := rfl
@[simp] theorem readReg_raiseInvalidCondition (s : State) (r : Reg) :
    (raiseInvalidCondition s).readReg r = s.readReg r := rfl
@[simp] theorem readReg_endStep (s : State) (r : Reg) : (endStep s).readReg r = s.readReg r :=
  State.readReg_congr (by simp) r

/-- x[0] after the fetch advance is A + 2, every other register is as it was (R16, R59). -/
theorem readReg_advance (s : State) (r : Reg) :
    (advance s).readReg r = if r = 0 then s.pc + 2 else s.readReg r :=
  State.readReg_writeReg s 0 r (s.pc + 2)

/-- The flags after an update: the new ones with FLAG_MODE = `arith`, the old ones otherwise (R75). -/
theorem State.updateFlags_flags (s : State) (f : Flags) :
    (s.updateFlags f).flags = if s.cfg.flagMode = .arith then f else s.flags := by
  unfold State.updateFlags; cases s.cfg.flagMode <;> rfl

/-! Display cells. -/

theorem cellIndex_inj {r c r' c' : Fin 5} : cellIndex r c = cellIndex r' c' ↔ r = r' ∧ c = c' := by
  simp only [cellIndex, Fin.ext_iff]; omega

/-- What a cell shows after a write of a cell (R44). -/
theorem State.getPixel_setPixel (s : State) (r c r' c' : Fin 5) (b : Byte) :
    (s.setPixel r c b).getPixel r' c' = if r' = r ∧ c' = c then b else s.getPixel r' c' := by
  simp only [State.getPixel, State.setPixel, Fin.getElem_fin, Vector.getElem_set, ← Fin.ext_iff, cellIndex_inj]
  simp only [eq_comm]

/-- The cell of an address of the display range has index address − 0xFF00 (R36). -/
theorem cellIndex_of_address {a : Nat} (_hlo : 0xFF00 ≤ a) (hhi : a ≤ 0xFF18) :
    (cellIndex (cellRow a) (cellColumn a)).val = a - 0xFF00 := by
  simp only [cellIndex, cellRow, cellColumn, Fin.val_ofNat]; omega

/-- Two addresses of the display range with the same cell are equal. -/
theorem cell_inj {a b : Nat} (ha : 0xFF00 ≤ a) (ha' : a ≤ 0xFF18) (hb : 0xFF00 ≤ b) (hb' : b ≤ 0xFF18) :
    (cellRow a = cellRow b ∧ cellColumn a = cellColumn b) ↔ a = b := by
  rw [← cellIndex_inj, Fin.ext_iff, cellIndex_of_address ha ha', cellIndex_of_address hb hb']; omega

/-! The multiplexer and accesses of several bytes: what they leave unchanged. -/

/-! The frame of `read8`. -/

@[simp] theorem read8_cfg (a : Word) (s : State) : ((read8 a s).2).cfg = s.cfg := by
  unfold read8; split <;> [rfl; (split <;> [rfl; (split <;> rfl)])]
@[simp] theorem read8_regs (a : Word) (s : State) : ((read8 a s).2).regs = s.regs := by
  unfold read8; split <;> [rfl; (split <;> [rfl; (split <;> rfl)])]
@[simp] theorem read8_flags (a : Word) (s : State) : ((read8 a s).2).flags = s.flags := by
  unfold read8; split <;> [rfl; (split <;> [rfl; (split <;> rfl)])]
@[simp] theorem read8_fault (a : Word) (s : State) : ((read8 a s).2).fault = s.fault := by
  unfold read8; split <;> [rfl; (split <;> [rfl; (split <;> rfl)])]
@[simp] theorem read8_boundsFault (a : Word) (s : State) : ((read8 a s).2).boundsFault = s.boundsFault := by
  unfold read8; split <;> [rfl; (split <;> [rfl; (split <;> rfl)])]
@[simp] theorem read8_boundsAddr (a : Word) (s : State) : ((read8 a s).2).boundsAddr = s.boundsAddr := by
  unfold read8; split <;> [rfl; (split <;> [rfl; (split <;> rfl)])]
@[simp] theorem read8_loop (a : Word) (s : State) : ((read8 a s).2).loop = s.loop := by
  unfold read8; split <;> [rfl; (split <;> [rfl; (split <;> rfl)])]
@[simp] theorem read8_mem (a : Word) (s : State) : ((read8 a s).2).mem = s.mem := by
  unfold read8; split <;> [rfl; (split <;> [rfl; (split <;> rfl)])]
@[simp] theorem read8_display (a : Word) (s : State) : ((read8 a s).2).display = s.display := by
  unfold read8; split <;> [rfl; (split <;> [rfl; (split <;> rfl)])]
@[simp] theorem read8_retired (a : Word) (s : State) : ((read8 a s).2).retired = s.retired := by
  unfold read8; split <;> [rfl; (split <;> [rfl; (split <;> rfl)])]
@[simp] theorem read8_refused (a : Word) (s : State) : ((read8 a s).2).refused = s.refused := by
  unfold read8; split <;> [rfl; (split <;> [rfl; (split <;> rfl)])]

/-! The frame of `readBytes`. -/

@[simp] theorem readBytes_cfg (n : Nat) (a : Word) (s : State) : ((readBytes n a s).2).cfg = s.cfg := by
  induction n generalizing a s with
  | zero => rfl
  | succ n ih => simp [readBytes, ih]
@[simp] theorem readBytes_regs (n : Nat) (a : Word) (s : State) : ((readBytes n a s).2).regs = s.regs := by
  induction n generalizing a s with
  | zero => rfl
  | succ n ih => simp [readBytes, ih]
@[simp] theorem readBytes_flags (n : Nat) (a : Word) (s : State) : ((readBytes n a s).2).flags = s.flags := by
  induction n generalizing a s with
  | zero => rfl
  | succ n ih => simp [readBytes, ih]
@[simp] theorem readBytes_fault (n : Nat) (a : Word) (s : State) : ((readBytes n a s).2).fault = s.fault := by
  induction n generalizing a s with
  | zero => rfl
  | succ n ih => simp [readBytes, ih]
@[simp] theorem readBytes_boundsFault (n : Nat) (a : Word) (s : State) : ((readBytes n a s).2).boundsFault = s.boundsFault := by
  induction n generalizing a s with
  | zero => rfl
  | succ n ih => simp [readBytes, ih]
@[simp] theorem readBytes_boundsAddr (n : Nat) (a : Word) (s : State) : ((readBytes n a s).2).boundsAddr = s.boundsAddr := by
  induction n generalizing a s with
  | zero => rfl
  | succ n ih => simp [readBytes, ih]
@[simp] theorem readBytes_loop (n : Nat) (a : Word) (s : State) : ((readBytes n a s).2).loop = s.loop := by
  induction n generalizing a s with
  | zero => rfl
  | succ n ih => simp [readBytes, ih]
@[simp] theorem readBytes_mem (n : Nat) (a : Word) (s : State) : ((readBytes n a s).2).mem = s.mem := by
  induction n generalizing a s with
  | zero => rfl
  | succ n ih => simp [readBytes, ih]
@[simp] theorem readBytes_display (n : Nat) (a : Word) (s : State) : ((readBytes n a s).2).display = s.display := by
  induction n generalizing a s with
  | zero => rfl
  | succ n ih => simp [readBytes, ih]
@[simp] theorem readBytes_retired (n : Nat) (a : Word) (s : State) : ((readBytes n a s).2).retired = s.retired := by
  induction n generalizing a s with
  | zero => rfl
  | succ n ih => simp [readBytes, ih]
@[simp] theorem readBytes_refused (n : Nat) (a : Word) (s : State) : ((readBytes n a s).2).refused = s.refused := by
  induction n generalizing a s with
  | zero => rfl
  | succ n ih => simp [readBytes, ih]

/-! The frame of `write8`. -/

@[simp] theorem write8_cfg (a : Word) (b : Byte) (s : State) : (write8 a b s).cfg = s.cfg := by
  unfold write8; split <;> [rfl; (split <;> rfl)]
@[simp] theorem write8_regs (a : Word) (b : Byte) (s : State) : (write8 a b s).regs = s.regs := by
  unfold write8; split <;> [rfl; (split <;> rfl)]
@[simp] theorem write8_flags (a : Word) (b : Byte) (s : State) : (write8 a b s).flags = s.flags := by
  unfold write8; split <;> [rfl; (split <;> rfl)]
@[simp] theorem write8_fault (a : Word) (b : Byte) (s : State) : (write8 a b s).fault = s.fault := by
  unfold write8; split <;> [rfl; (split <;> rfl)]
@[simp] theorem write8_boundsFault (a : Word) (b : Byte) (s : State) : (write8 a b s).boundsFault = s.boundsFault := by
  unfold write8; split <;> [rfl; (split <;> rfl)]
@[simp] theorem write8_boundsAddr (a : Word) (b : Byte) (s : State) : (write8 a b s).boundsAddr = s.boundsAddr := by
  unfold write8; split <;> [rfl; (split <;> rfl)]
@[simp] theorem write8_loop (a : Word) (b : Byte) (s : State) : (write8 a b s).loop = s.loop := by
  unfold write8; split <;> [rfl; (split <;> rfl)]
@[simp] theorem write8_retired (a : Word) (b : Byte) (s : State) : (write8 a b s).retired = s.retired := by
  unfold write8; split <;> [rfl; (split <;> rfl)]
@[simp] theorem write8_refused (a : Word) (b : Byte) (s : State) : (write8 a b s).refused = s.refused := by
  unfold write8; split <;> [rfl; (split <;> rfl)]
@[simp] theorem write8_draws (a : Word) (b : Byte) (s : State) : (write8 a b s).draws = s.draws := by
  unfold write8; split <;> [rfl; (split <;> rfl)]

/-! The frame of `writeBytes`. -/

@[simp] theorem writeBytes_cfg (n : Nat) (a v : Word) (s : State) : (writeBytes n a v s).cfg = s.cfg := by
  induction n generalizing a v s with
  | zero => rfl
  | succ n ih => simp [writeBytes, ih]
@[simp] theorem writeBytes_regs (n : Nat) (a v : Word) (s : State) : (writeBytes n a v s).regs = s.regs := by
  induction n generalizing a v s with
  | zero => rfl
  | succ n ih => simp [writeBytes, ih]
@[simp] theorem writeBytes_flags (n : Nat) (a v : Word) (s : State) : (writeBytes n a v s).flags = s.flags := by
  induction n generalizing a v s with
  | zero => rfl
  | succ n ih => simp [writeBytes, ih]
@[simp] theorem writeBytes_fault (n : Nat) (a v : Word) (s : State) : (writeBytes n a v s).fault = s.fault := by
  induction n generalizing a v s with
  | zero => rfl
  | succ n ih => simp [writeBytes, ih]
@[simp] theorem writeBytes_boundsFault (n : Nat) (a v : Word) (s : State) : (writeBytes n a v s).boundsFault = s.boundsFault := by
  induction n generalizing a v s with
  | zero => rfl
  | succ n ih => simp [writeBytes, ih]
@[simp] theorem writeBytes_boundsAddr (n : Nat) (a v : Word) (s : State) : (writeBytes n a v s).boundsAddr = s.boundsAddr := by
  induction n generalizing a v s with
  | zero => rfl
  | succ n ih => simp [writeBytes, ih]
@[simp] theorem writeBytes_loop (n : Nat) (a v : Word) (s : State) : (writeBytes n a v s).loop = s.loop := by
  induction n generalizing a v s with
  | zero => rfl
  | succ n ih => simp [writeBytes, ih]
@[simp] theorem writeBytes_retired (n : Nat) (a v : Word) (s : State) : (writeBytes n a v s).retired = s.retired := by
  induction n generalizing a v s with
  | zero => rfl
  | succ n ih => simp [writeBytes, ih]
@[simp] theorem writeBytes_refused (n : Nat) (a v : Word) (s : State) : (writeBytes n a v s).refused = s.refused := by
  induction n generalizing a v s with
  | zero => rfl
  | succ n ih => simp [writeBytes, ih]
@[simp] theorem writeBytes_draws (n : Nat) (a v : Word) (s : State) : (writeBytes n a v s).draws = s.draws := by
  induction n generalizing a v s with
  | zero => rfl
  | succ n ih => simp [writeBytes, ih]

@[simp] theorem readReg_read8 (a : Word) (s : State) (r : Reg) : (read8 a s).2.readReg r = s.readReg r :=
  State.readReg_congr (by simp) r
@[simp] theorem readReg_readBytes (n : Nat) (a : Word) (s : State) (r : Reg) :
    (readBytes n a s).2.readReg r = s.readReg r := State.readReg_congr (by simp) r
@[simp] theorem readReg_write8 (a : Word) (b : Byte) (s : State) (r : Reg) :
    (write8 a b s).readReg r = s.readReg r := State.readReg_congr (by simp) r
@[simp] theorem readReg_writeBytes (n : Nat) (a v : Word) (s : State) (r : Reg) :
    (writeBytes n a v s).readReg r = s.readReg r := State.readReg_congr (by simp) r

/-- A read outside the input range takes no draw and changes nothing. -/
theorem read8_quiet {a : Word} {s : State} (h : ¬ (0xFF19 ≤ a.toNat ∧ a.toNat ≤ 0xFF1F)) : (read8 a s).2 = s := by
  unfold read8; split <;> [rfl; split <;> [rfl; split <;> [omega; rfl]]]

/-- A read below 0xFF00 gives the stored byte (R32, R38). -/
theorem read8_ram {a : Word} (s : State) (h : a.toNat < 0xFF00) : read8 a s = (s.mem.read a.toNat, s) := by
  simp [read8, h]

/-- The bytes a write leaves: what a later read below 0xFF00 gives. -/
theorem write8_mem_read {s : State} (h : s.mem.wf) (a : Word) (b : Byte) (x : Nat) :
    (write8 a b s).mem.read x = if x = a.toNat ∧ x < 0xFF00 then b else s.mem.read x := by
  unfold write8
  split
  · next ha =>
    rw [Memory.read_write h]
    by_cases hx : x = a.toNat
    · simp [hx, ha]
    · simp [hx]
  · next ha =>
    have hx : ¬ (x = a.toNat ∧ x < 0xFF00) := by rintro ⟨rfl, hx⟩; exact ha hx
    rw [if_neg hx]
    split <;> rfl

/-- The cells a write leaves. -/
theorem write8_getPixel (s : State) (a : Word) (b : Byte) (row column : Fin 5) :
    (write8 a b s).getPixel row column =
      if (0xFF00 ≤ a.toNat ∧ a.toNat ≤ 0xFF18) ∧ row = cellRow a.toNat ∧ column = cellColumn a.toNat then b
      else s.getPixel row column := by
  unfold write8
  split
  · rw [if_neg (by omega)]; rfl
  · split
    · next h1 h2 =>
      have h3 : 0xFF00 ≤ a.toNat ∧ a.toNat ≤ 0xFF18 := by omega
      simp only [State.getPixel_setPixel, h3, true_and, and_self]
    · rw [if_neg (by omega)]

theorem write8_wf {s : State} (h : s.mem.wf) (a : Word) (b : Byte) : (write8 a b s).mem.wf := by
  unfold write8
  split
  · exact Memory.write_wf h _ _
  · split <;> exact h

theorem write8_visible {s : State} (h : s.mem.Visible) (a : Word) (b : Byte) : (write8 a b s).mem.Visible := by
  unfold write8
  split
  · next ha => exact Memory.write_visible h ha _
  · split <;> exact h

/-- A store keeps the canonical form. -/
theorem writeBytes_wf {s : State} (h : s.mem.wf) (n : Nat) (a v : Word) : (writeBytes n a v s).mem.wf := by
  induction n generalizing a v s with
  | zero => exact h
  | succ n ih => exact ih (write8_wf h _ _) _ _

/-- A store lists visible bytes only. -/
theorem writeBytes_visible {s : State} (h : s.mem.Visible) (n : Nat) (a v : Word) :
    (writeBytes n a v s).mem.Visible := by
  induction n generalizing a v s with
  | zero => exact h
  | succ n ih => exact ih (write8_visible h _ _) _ _

/-! Bounds (R34, R35). -/

/-- Stepping one address on: byte i + 1 from `a` is byte i from `a + 1`. -/
theorem next_address (a : Word) (i : Nat) : a + BitVec.ofNat 32 (i + 1) = a + 1 + BitVec.ofNat 32 i := by
  rw [BitVec.ofNat_add, BitVec.add_assoc a, BitVec.add_comm 1]; rfl

/-- No byte is out of bounds exactly when all are in bounds. -/
theorem firstOutOfBounds_none (m n : Nat) (a : Word) : firstOutOfBounds m n a = none ↔ InBounds m a n := by
  induction n generalizing a with
  | zero => simp [firstOutOfBounds, InBounds]
  | succ n ih =>
    rw [firstOutOfBounds]
    constructor
    · intro h i hi
      split at h
      · cases h
      · cases i with
        | zero => simpa using by omega
        | succ i => rw [next_address]; exact (ih _).1 h i (by omega)
    · intro h
      have h0 := h 0 (by omega)
      simp only [BitVec.add_zero] at h0
      rw [if_neg (by omega)]
      exact (ih _).2 fun i hi => by rw [← next_address]; exact h (i + 1) (by omega)

/-- The byte reported is the first out of bounds. -/
theorem firstOutOfBounds_some (m n : Nat) (a bad : Word) :
    firstOutOfBounds m n a = some bad ↔ FirstOut m a n bad := by
  induction n generalizing a with
  | zero => simp [firstOutOfBounds, FirstOut]
  | succ n ih =>
    rw [firstOutOfBounds]
    constructor
    · intro h
      split at h
      · next hm =>
        cases h
        exact ⟨0, by omega, by simp, hm, by omega⟩
      · next hm =>
        obtain ⟨i, hi, hb, hbm, hj⟩ := (ih _).1 h
        refine ⟨i + 1, by omega, by rw [next_address]; exact hb, hbm, fun j hji => ?_⟩
        cases j with
        | zero => simpa using by omega
        | succ j => rw [next_address]; exact hj j (by omega)
    · rintro ⟨i, hi, hb, hbm, hj⟩
      cases i with
      | zero =>
        simp only [BitVec.add_zero] at hb
        rw [if_pos (hb ▸ hbm), hb]
      | succ i =>
        have h0 := hj 0 (by omega)
        simp only [BitVec.add_zero] at h0
        rw [if_neg (by omega)]
        refine (ih _).2 ⟨i, by omega, by rw [← next_address]; exact hb, hbm, fun j hji => ?_⟩
        rw [← next_address]; exact hj (j + 1) (by omega)

/-- All that `MemRead` can answer (R40). -/
theorem memRead_cases (a : Word) (n : Nat) (s : State) :
    (∃ bad, FirstOut s.cfg.memSize a n bad ∧ memRead a n s = .error bad) ∨
      (InBounds s.cfg.memSize a n ∧ memRead a n s = .ok (readBytes n a s)) := by
  unfold memRead
  split
  · next bad h => exact .inl ⟨bad, (firstOutOfBounds_some ..).1 h, rfl⟩
  · next h => exact .inr ⟨(firstOutOfBounds_none ..).1 h, rfl⟩

/-- All that `MemWrite` can answer (R41). -/
theorem memWrite_cases (a : Word) (n : Nat) (v : Word) (s : State) :
    (∃ bad, FirstOut s.cfg.memSize a n bad ∧ memWrite a n v s = .error bad) ∨
      (InBounds s.cfg.memSize a n ∧ memWrite a n v s = .ok (writeBytes n a v s)) := by
  unfold memWrite
  split
  · next bad h => exact .inl ⟨bad, (firstOutOfBounds_some ..).1 h, rfl⟩
  · next h => exact .inr ⟨(firstOutOfBounds_none ..).1 h, rfl⟩

theorem memRead_ok {a : Word} {n : Nat} {s : State} (h : InBounds s.cfg.memSize a n) :
    memRead a n s = .ok (readBytes n a s) := by
  simp only [memRead, (firstOutOfBounds_none ..).2 h]

theorem memRead_error {a : Word} {n : Nat} {s : State} {bad : Word} (h : FirstOut s.cfg.memSize a n bad) :
    memRead a n s = .error bad := by
  simp only [memRead, (firstOutOfBounds_some ..).2 h]

theorem memWrite_ok {a : Word} {n : Nat} {v : Word} {s : State} (h : InBounds s.cfg.memSize a n) :
    memWrite a n v s = .ok (writeBytes n a v s) := by
  simp only [memWrite, (firstOutOfBounds_none ..).2 h]

theorem memWrite_error {a : Word} {n : Nat} {v : Word} {s : State} {bad : Word} (h : FirstOut s.cfg.memSize a n bad) :
    memWrite a n v s = .error bad := by
  simp only [memWrite, (firstOutOfBounds_some ..).2 h]

/-- All that `Fetch` can answer (R58). -/
theorem fetch_cases (s : State) :
    (∃ bad, FirstOut s.cfg.memSize s.pc 2 bad ∧ fetch s = .error bad) ∨
      (InBounds s.cfg.memSize s.pc 2 ∧
        fetch s = .ok (wordOfBytes (read8 s.pc s).1 (read8 (s.pc + 1) (read8 s.pc s).2).1,
          (read8 (s.pc + 1) (read8 s.pc s).2).2)) := by
  unfold fetch
  split
  · next bad h => exact .inl ⟨bad, (firstOutOfBounds_some ..).1 h, rfl⟩
  · next h => exact .inr ⟨(firstOutOfBounds_none ..).1 h, rfl⟩

/-- A fetch changes nothing but the count of draws. -/
theorem fetch_state {s t : State} {w : HalfWord} (h : fetch s = .ok (w, t)) : t = { s with draws := t.draws } := by
  obtain ⟨bad, _, hf⟩ | ⟨_, hf⟩ := fetch_cases s
  · rw [hf] at h; cases h
  · rw [hf] at h
    simp only [Except.ok.injEq, Prod.mk.injEq] at h
    obtain ⟨_, rfl⟩ := h
    ext1 <;> simp

/-! Stored bytes: what a store leaves in memory and on the display, byte by byte. -/

/-- The bytes of memory after a store of at most 4 bytes: byte i of the value at the i-th address below 0xFF00, every
byte that no stored address covers as before (R41, R42). -/
theorem writeBytes_mem_uncovered {s : State} (h : s.mem.wf) (n : Nat) (a v : Word) (x : Nat) (hx : ¬ Covers a n x) :
    (writeBytes n a v s).mem.read x = s.mem.read x := by
  induction n generalizing a v s with
  | zero => rfl
  | succ n ih =>
    rw [writeBytes, ih (write8_wf h _ _), write8_mem_read h, if_neg]
    · rintro ⟨rfl, _⟩; exact hx ⟨0, by omega, by simp⟩
    · rintro ⟨i, hi, rfl⟩; exact hx ⟨i + 1, by omega, by rw [next_address]⟩

theorem writeBytes_getPixel_uncovered (s : State) (n : Nat) (a v : Word) (x : Nat) (hlo : 0xFF00 ≤ x) (hhi : x ≤ 0xFF18)
    (hx : ¬ Covers a n x) :
    (writeBytes n a v s).getPixel (cellRow x) (cellColumn x) = s.getPixel (cellRow x) (cellColumn x) := by
  induction n generalizing a v s with
  | zero => rfl
  | succ n ih =>
    rw [writeBytes, ih, write8_getPixel, if_neg]
    · rintro ⟨⟨h1, h2⟩, h3⟩
      rw [cell_inj hlo hhi h1 h2] at h3
      exact hx ⟨0, by omega, by simpa using h3⟩
    · rintro ⟨i, hi, rfl⟩; exact hx ⟨i + 1, by omega, by rw [next_address]⟩

end Sys2Proof.Machine
end

