-- ==== Sys2Proof/Laws/Exec.lean ====
section
/-! SUPPORT. Everything a shared shape of the instructions and a step can do, said once, and what the bytes of a load and a
store are. -/

namespace Sys2Proof.Machine

/-! The instruction word as a number. -/

/-- A field at its position counts for its value times the weight of its lowest bit. -/
theorem place_toNat {n : Nat} (f : BitVec n) (l : Nat) (h : n + l ≤ 16) : (place f l).toNat = f.toNat * 2 ^ l := by
  have hf := f.isLt
  have h2 : f.toNat * 2 ^ l < 2 ^ 16 := calc
    f.toNat * 2 ^ l < 2 ^ n * 2 ^ l := by gcongr
    _ = 2 ^ (n + l) := by rw [pow_add]
    _ ≤ 2 ^ 16 := Nat.pow_le_pow_right (by omega) h
  have h3 : f.toNat < 2 ^ 16 := lt_of_lt_of_le hf (Nat.pow_le_pow_right (by omega) (by omega))
  simp only [place, BitVec.toNat_shiftLeft, BitVec.toNat_setWidth, Nat.shiftLeft_eq]
  rw [Nat.mod_eq_of_lt h3, Nat.mod_eq_of_lt h2]

/-- Joining a word that is a multiple of `2 ^ l` with one below `2 ^ l` adds them. -/
theorem or_toNat_of_multiple {a b : HalfWord} {l x : Nat} (ha : a.toNat = x * 2 ^ l) (hb : b.toNat < 2 ^ l) :
    (a ||| b).toNat = a.toNat + b.toNat := by
  rw [BitVec.toNat_or, ha, mul_comm, Nat.two_pow_add_eq_or_of_lt hb]

theorem field_toNat (r : Reg) : (Reg.field r).toNat = r.val := rfl

/-! The shared shapes of the instructions. -/

/-- An access in bounds has no first byte out of bounds. -/
theorem InBounds.not_firstOut {m n : Nat} {a bad : Word} (h : InBounds m a n) : ¬ FirstOut m a n bad := by
  rintro ⟨i, hi, rfl, h2, _⟩
  have := h i hi
  omega

/-- What a load can do: an OutOfBounds with nothing else, or the read and the one write. -/
theorem execLdn_cases (d s1 : Reg) (n : Nat) (k : Bool) (s : State) :
    (∃ bad, FirstOut s.cfg.memSize (loadBase d s1 k s) n bad ∧ execLdn d s1 n k s = .next (raiseOutOfBounds bad s)) ∨
    (InBounds s.cfg.memSize (loadBase d s1 k s) n ∧ execLdn d s1 n k s =
      .next ((readBytes n (loadBase d s1 k s) (loadPrepared d k s)).2.writeReg d
        (readBytes n (loadBase d s1 k s) (loadPrepared d k s)).1)) := by
  obtain ⟨bad, h, e⟩ | ⟨h, e⟩ := memRead_cases (loadBase d s1 k s) n (loadPrepared d k s)
  · exact .inl ⟨bad, by simpa using h, by simp [execLdn, e]⟩
  · exact .inr ⟨by simpa using h, by simp [execLdn, e]⟩

/-- What a store can do: an OutOfBounds with nothing else, or the writes after the skip. -/
theorem execStn_cases (d s1 : Reg) (n : Nat) (k : Bool) (s : State) :
    (∃ bad, FirstOut s.cfg.memSize (storeBase d k s) n bad ∧ execStn d s1 n k s = .next (raiseOutOfBounds bad s)) ∨
    (InBounds s.cfg.memSize (storeBase d k s) n ∧
      execStn d s1 n k s = .next (writeBytes n (storeBase d k s) (storeValue s1 k s) (skip k s))) := by
  obtain ⟨bad, h, e⟩ | ⟨h, e⟩ := memWrite_cases (storeBase d k s) n (storeValue s1 k s) (skip k s)
  · exact .inl ⟨bad, by simpa using h, by simp [execStn, e]⟩
  · exact .inr ⟨by simpa using h, by simp [execStn, e]⟩

/-- What a conditional operation can do: set `fault`, nothing, or the one write. -/
theorem conditionally_cases (f : Word → Word → Word) (c : Cond) (d s1 : Reg) (s : State) :
    (InvalidCode c ∧ (condEval c s).1 = false ∧ conditionally f c d s1 s = raiseInvalidCondition s) ∨
    (¬ InvalidCode c ∧ (condEval c s).1 = false ∧ conditionally f c d s1 s = s) ∨
    (¬ InvalidCode c ∧ (condEval c s).1 = true ∧
      conditionally f c d s1 s = s.writeReg d (f (s.readReg d) (s.readReg s1))) := by
  cases c <;> simp [InvalidCode, conditionally, condEval, condTest]
  all_goals
    by_cases h1 : s.flags.z <;> by_cases h2 : s.flags.s <;> by_cases h3 : s.flags.c <;> by_cases h4 : s.flags.v <;>
      simp [h1, h2, h3, h4]

/-- What a shift can do: the refusal of an unknown kind, or the one write. -/
theorem shiftInPlace_cases (d : Reg) (amount : Nat) (sel : BitVec 2) (s : State) :
    (ShiftKind.ofWord (shiftSelector sel s) = none ∧ shiftInPlace d amount sel s = refuseShift d s) ∨
    ∃ kind, ShiftKind.ofWord (shiftSelector sel s) = some kind ∧
      shiftInPlace d amount sel s = s.writeReg d (shiftBy s.cfg.sarFill kind (s.readReg d) amount) := by
  unfold shiftInPlace
  cases h : ShiftKind.ofWord (shiftSelector sel s) <;> simp

/-- The skip moves the PC. -/
theorem skip_pc (k : Bool) (s : State) : (skip k s).pc = s.pc + (if k then 2 else 0) := by
  simp [skip, State.addPc, State.pc]

/-- The skip moves no other register. -/
theorem skip_readReg_ne {r : Reg} (h : r ≠ 0) (k : Bool) (s : State) : (skip k s).readReg r = s.readReg r :=
  State.readReg_writeReg_ne s h _

/-- A register write keeps everything but that register. -/
theorem keepsAllBut_writeReg (s : State) (r : Reg) (v : Word) : KeepsAllBut [r] s (s.writeReg r v) :=
  ⟨fun q hq => State.readReg_writeReg_ne s (by simpa using hq) v, ⟨fun _ => rfl, fun _ _ => rfl⟩,
    ⟨rfl, rfl, rfl, rfl, rfl, rfl, rfl⟩, rfl⟩

/-- A register write and a flag update keep everything but that register. -/
theorem keepsAllBut_updateFlags (s : State) (r : Reg) (v : Word) (f : Flags) :
    KeepsAllBut [r] s ((s.writeReg r v).updateFlags f) :=
  ⟨fun q hq => by rw [State.readReg_updateFlags]; exact State.readReg_writeReg_ne s (by simpa using hq) v,
    ⟨fun _ => by simp, fun _ _ => State.getPixel_congr (by simp) _ _⟩, by simp [KeepsControl], by simp⟩

/-! The step. -/

/-- Only a ready state takes a step. -/
theorem ready_of_step {s t : State} (h : step s = .next t) : s.Ready := by
  unfold step at h
  split at h
  · cases h
  · split at h
    · cases h
    · split at h
      · cases h
      · next h1 h2 h3 =>
        refine ⟨?_, by simpa using h2, not_not.1 h3⟩
        cases hh : s.loop <;> simp_all

/-- The step of a ready state. -/
theorem step_of_ready {s : State} (h : s.Ready) : step s =
    match fetch s with
    | .error bad => .next (endStep (raiseOutOfBounds bad s))
    | .ok (w, t) => endOutcome (exec (decodeWord w) (advance t)) := by
  obtain ⟨h1, h2, h3⟩ := h
  exact (if_neg (by simp [h1])).trans ((if_neg (by simp [h2])).trans (if_neg (not_not_intro h3)))

/-- Everything a step can do: a fetch out of bounds, or the execution of the word fetched and the end of the step. -/
theorem step_cases {s t : State} (h : step s = .next t) : s.Ready ∧
    ((∃ bad, FirstOut s.cfg.memSize s.pc 2 bad ∧ t = endStep (raiseOutOfBounds bad s)) ∨
      (InBounds s.cfg.memSize s.pc 2 ∧ ∃ w u v, fetch s = .ok (w, u) ∧ u = { s with draws := u.draws } ∧
        exec (decodeWord w) (advance u) = .next v ∧ t = endStep v)) := by
  have hr := ready_of_step h
  refine ⟨hr, ?_⟩
  rw [step_of_ready hr] at h
  obtain ⟨bad, hb, e⟩ | ⟨hb, e⟩ := fetch_cases s
  · rw [e] at h
    cases h
    exact .inl ⟨bad, hb, rfl⟩
  · rw [e] at h
    revert h e
    generalize wordOfBytes _ _ = w
    generalize (read8 _ _).2 = u
    intro h e
    simp only at h
    cases hx : exec (decodeWord w) (advance u) with
    | next v =>
      rw [hx] at h
      cases h
      exact .inr ⟨hb, w, u, v, e, fetch_state e, hx, rfl⟩
    | fault f =>
      rw [hx] at h
      cases h
    | refused r =>
      rw [hx] at h
      cases h

/-- Where LOOP stands at the end of a step. -/
theorem endStep_loop (s : State) : (endStep s).loop =
    if s.refused = false ∧ (s.fault = true ∨ s.boundsFault = true) then .faulted else s.loop := by
  unfold endStep
  cases s.refused <;> cases s.fault <;> cases s.boundsFault <;> simp

/-! The bytes of a load and of a store. -/

theorem setWidth_low_byte (v : Word) : v.setWidth 8 = v.extractLsb' 0 8 := by
  apply BitVec.eq_of_getLsbD_eq
  intro j hj
  simp [hj]

theorem ushiftRight_byte (v : Word) (i : Nat) : (v >>> 8).extractLsb' (8 * i) 8 = v.extractLsb' (8 * (i + 1)) 8 := by
  apply BitVec.eq_of_getLsbD_eq
  intro j hj
  simp [hj]
  congr 1
  omega

/-- The bytes of a byte put below a shifted word. -/
theorem packed_byte (b : Byte) (v : Word) (i : Nat) : (b.setWidth 32 ||| v <<< 8).extractLsb' (8 * i) 8 =
    if i = 0 then b else if i < 4 then v.extractLsb' (8 * (i - 1)) 8 else 0 := by
  apply BitVec.eq_of_getLsbD_eq
  intro j hj
  simp only [BitVec.getLsbD_extractLsb', BitVec.getLsbD_or, BitVec.getLsbD_shiftLeft, BitVec.getLsbD_setWidth, hj,
    decide_true, Bool.true_and]
  by_cases h0 : i = 0
  · subst h0
    simp [hj]
    omega
  · rw [if_neg h0, BitVec.getLsbD_of_ge b _ (by omega)]
    by_cases h4 : i < 4
    · rw [if_pos h4, BitVec.getLsbD_extractLsb', show 8 * i + j - 8 = 8 * (i - 1) + j by omega]
      simp [hj, show 8 * i + j < 32 by omega, show ¬ 8 * i + j < 8 by omega]
    · rw [if_neg h4]
      simp [show ¬ 8 * i + j < 32 by omega]

/-- A read of plain memory takes no draw and gives the stored bytes in order. -/
theorem readBytes_memory (n : Nat) (a : Word) (s : State) (hn : n ≤ 4)
    (h : ∀ i < n, (a + BitVec.ofNat 32 i).toNat < 0xFF00) : (readBytes n a s).2 = s ∧
    ∀ i, (readBytes n a s).1.extractLsb' (8 * i) 8 =
      if i < n then s.mem.read (a + BitVec.ofNat 32 i).toNat else 0 := by
  induction n generalizing a with
  | zero => simp [readBytes]
  | succ n ih =>
    have h0 := h 0 (by omega)
    simp at h0
    obtain ⟨i1, i2⟩ := ih (a + 1) (by omega) (fun i hi => by rw [← next_address]; exact h (i + 1) (by omega))
    simp only [readBytes, read8_ram s h0]
    refine ⟨i1, fun i => ?_⟩
    rw [packed_byte]
    by_cases hi : i = 0
    · simp [hi]
    · obtain ⟨m, rfl⟩ : ∃ m, i = m + 1 := ⟨i - 1, by omega⟩
      by_cases h4 : m + 1 < 4
      · simp only [if_neg hi, if_pos h4, Nat.add_sub_cancel, i2 m, next_address]
        simp
      · rw [if_neg hi, if_neg h4, if_neg (by omega)]

/-- Byte addresses of one access at different offsets differ. -/
theorem address_ne {a : Word} {i j : Nat} (hi : i < 2 ^ 32) (hj : j < 2 ^ 32) (h : i ≠ j) :
    a + BitVec.ofNat 32 i ≠ a + BitVec.ofNat 32 j := by
  intro e
  have := congrArg BitVec.toNat (BitVec.add_right_inj a |>.1 e)
  simp only [BitVec.toNat_ofNat] at this
  omega

/-- Every byte written stands where it was written. -/
theorem writeBytes_covered {s : State} (h : s.mem.wf) (n : Nat) (a v : Word) (hn : n ≤ 4) :
    ∀ i < n, ∀ x, x = (a + BitVec.ofNat 32 i).toNat →
      (x < 0xFF00 → (writeBytes n a v s).mem.read x = v.extractLsb' (8 * i) 8) ∧
      (0xFF00 ≤ x → x ≤ 0xFF18 →
        (writeBytes n a v s).getPixel (cellRow x) (cellColumn x) = v.extractLsb' (8 * i) 8) := by
  induction n generalizing a v s with
  | zero => omega
  | succ n ih =>
    intro i hi x hx
    cases i with
    | zero =>
      have hx : x = a.toNat := by simpa using hx
      have nc : ¬ Covers (a + 1) n x := by
        rintro ⟨j, hj, e⟩
        rw [← next_address] at e
        refine address_ne (a := a) (i := 0) (j := j + 1) (by omega) (by omega) (by omega) (BitVec.eq_of_toNat_eq ?_)
        rw [← e, hx]
        simp
      refine ⟨fun h1 => ?_, fun h1 h2 => ?_⟩
      · rw [writeBytes, writeBytes_mem_uncovered (write8_wf h _ _) _ _ _ _ nc, write8_mem_read h, if_pos ⟨hx, h1⟩,
          setWidth_low_byte]
      · rw [writeBytes, writeBytes_getPixel_uncovered _ _ _ _ _ h1 h2 nc, write8_getPixel,
          if_pos ⟨⟨by omega, by omega⟩, by rw [hx], by rw [hx]⟩, setWidth_low_byte]
    | succ i =>
      rw [writeBytes]
      have := ih (write8_wf h _ _) (a + 1) (v >>> 8) (by omega) i (by omega) x (by rw [← next_address]; exact hx)
        (s := write8 a (v.setWidth 8) s)
      rwa [ushiftRight_byte] at this

/-! The image load. -/

/-- The image load keeps the canonical form and lists visible bytes only. -/
theorem copyImage_wf {m : Memory} (h : m.wf) (hv : m.Visible) (a : Nat) (image : List Byte) :
    (copyImage a image m).wf ∧ (copyImage a image m).Visible := by
  induction image generalizing a m with
  | nil => exact ⟨h, hv⟩
  | cons b image ih =>
    rw [copyImage]
    split
    · next ha => exact ih (Memory.write_wf h _ _) (Memory.write_visible hv ha _) _
    · exact ih h hv _

/-! Signed operands. -/

/-- The sum with a signed operand is the 32-bit sum. -/
theorem signedAdd_eq (a b : Word) : signedAdd a b = a + b := by
  apply BitVec.eq_of_toNat_eq
  simp only [signedAdd, BitVec.toInt_eq_toNat_cond, BitVec.toNat_ofInt, BitVec.toNat_add]
  have := a.isLt
  have := b.isLt
  split <;> omega

/-- The difference with a signed operand is the 32-bit difference. -/
theorem signedSub_eq (a b : Word) : signedSub a b = a - b := by
  apply BitVec.eq_of_toNat_eq
  simp only [signedSub, BitVec.toInt_eq_toNat_cond, BitVec.toNat_ofInt, BitVec.toNat_sub]
  have := a.isLt
  have := b.isLt
  split <;> omega

end Sys2Proof.Machine
end

