-- ==== Sys2Proof/Laws/PerInstr.lean ====
section
/-! SUPPORT. What holds of every instruction as syntax, one lemma per constructor. -/

namespace Sys2Proof.Laws

/-- The low four bits of an instruction's word are its opcode (spec/30_encoding.md R52, R57), whatever its operands. -/
def OpcodeInWord.Statement (i : Instr) : Prop := opField (encode i) = i.opcode

theorem OpcodeInWord.add (d s1 s2 : Reg) : OpcodeInWord.Statement (.add d s1 s2) :=
  opField_encodeR ..

theorem OpcodeInWord.sub (d s1 s2 : Reg) : OpcodeInWord.Statement (.sub d s1 s2) :=
  opField_encodeR ..

theorem OpcodeInWord.and (d s1 s2 : Reg) : OpcodeInWord.Statement (.and d s1 s2) :=
  opField_encodeR ..

theorem OpcodeInWord.or (d s1 s2 : Reg) : OpcodeInWord.Statement (.or d s1 s2) :=
  opField_encodeR ..

theorem OpcodeInWord.xor (d s1 s2 : Reg) : OpcodeInWord.Statement (.xor d s1 s2) :=
  opField_encodeR ..

theorem OpcodeInWord.shifti (d : Reg) (imm : BitVec 5) (sel : BitVec 2) : OpcodeInWord.Statement (.shifti d imm sel) :=
  opField_encodeSI ..

theorem OpcodeInWord.shiftr (d s1 : Reg) (sel : BitVec 2) : OpcodeInWord.Statement (.shiftr d s1 sel) :=
  opField_encodeSR ..

theorem OpcodeInWord.ldn (d s1 : Reg) (n : Nat) (k : Bool) : OpcodeInWord.Statement (.ldn d s1 n k) :=
  opField_encodeM ..

theorem OpcodeInWord.stn (d s1 : Reg) (n : Nat) (k : Bool) : OpcodeInWord.Statement (.stn d s1 n k) :=
  opField_encodeM ..

theorem OpcodeInWord.cadd (d s1 : Reg) (c : Cond) : OpcodeInWord.Statement (.cadd d s1 c) :=
  opField_encodeC ..

theorem OpcodeInWord.csub (d s1 : Reg) (c : Cond) : OpcodeInWord.Statement (.csub d s1 c) :=
  opField_encodeC ..

theorem OpcodeInWord.cand (d s1 : Reg) (c : Cond) : OpcodeInWord.Statement (.cand d s1 c) :=
  opField_encodeC ..

theorem OpcodeInWord.cor (d s1 : Reg) (c : Cond) : OpcodeInWord.Statement (.cor d s1 c) :=
  opField_encodeC ..

theorem OpcodeInWord.cxor (d s1 : Reg) (c : Cond) : OpcodeInWord.Statement (.cxor d s1 c) :=
  opField_encodeC ..

theorem OpcodeInWord.adds (d s1 s2 : Reg) : OpcodeInWord.Statement (.adds d s1 s2) :=
  opField_encodeR ..

theorem OpcodeInWord.subs (d s1 s2 : Reg) : OpcodeInWord.Statement (.subs d s1 s2) :=
  opField_encodeR ..

theorem OpcodeInWord.rsv (imm12 : BitVec 12) : OpcodeInWord.Statement (.rsv imm12) :=
  opField_encodeX ..

end Sys2Proof.Laws
end

