-- ==== Sys2Proof/Tests/Slice0.lean ====
section
/-! SUPPORT. Tests of the model: the words and vectors of spec/ (30_encoding.md section 7, 95_test_vectors.md), none of them
taken from the model's own answers, and for every obligation with hypotheses a state and operands that meet them. -/

namespace Sys2Proof.Tests

open Sys2Proof.Machine

/-! Configurations and launch states of 95_test_vectors.md, Conventions. -/

/-- The default configuration of the vectors, with their display value 0xD0 + i in cell i. -/
def plain : Config := { Config.reference with
  displayInit := #v[0xD0, 0xD1, 0xD2, 0xD3, 0xD4, 0xD5, 0xD6, 0xD7, 0xD8, 0xD9, 0xDA, 0xDB, 0xDC, 0xDD, 0xDE, 0xDF, 0xE0,
    0xE1, 0xE2, 0xE3, 0xE4, 0xE5, 0xE6, 0xE7, 0xE8] }
def arith : Config := { plain with flagMode := .arith }
def byInstruction : Config := { plain with shiftSelect := .instruction }
def literal16 : Config := { byInstruction with sarFill := .literal16 }
def wholeSpace : Config := { plain with memSize := 2 ^ 32 }

def setRegs (regs : List (Reg × Word)) (s : State) : State := regs.foldl (fun t p => t.writeReg p.1 p.2) s

def setMem (bytes : List (Nat × Byte)) (s : State) : State :=
  bytes.foldl (fun t p => { t with mem := t.mem.write p.1 p.2 }) s

/-- A launch state at address `a` with an instruction word there and some registers set. -/
def launch (c : Config) (a : Word) (w : HalfWord) (regs : List (Reg × Word)) : State :=
  placeWord w (setRegs ((0, a) :: regs) (State.resetWith c))

/-- Something of the state after one step. -/
def after {α : Type} (s : State) (f : State → α) : Option α :=
  match step s with
  | .next t => some (f t)
  | .fault _ => none
  | .refused _ => none

/-! WellFormed: one ill-formed term for each check, which the check refuses. -/

theorem test_wellFormed_refuses_ldn_count : Instr.WellFormed (.ldn 1 2 0 false) = false ∧
    Instr.WellFormed (.ldn 1 2 5 false) = false ∧ Instr.WellFormed (.ldn 1 2 4 true) = true := by decide

theorem test_wellFormed_refuses_stn_count : Instr.WellFormed (.stn 1 2 0 false) = false ∧
    Instr.WellFormed (.stn 1 2 5 false) = false ∧ Instr.WellFormed (.stn 1 2 1 true) = true := by decide

/-! Decoding: words written out from 30_encoding.md (its section 7) and 95_test_vectors.md section 2, for every
constructor. -/

theorem test_decode_arithmetic : decodeWord 0x2100 = .add 0 1 2 ∧ decodeWord 0xFFF0 = .add 15 15 15 ∧
    decodeWord 0x2131 = .sub 3 1 2 ∧ decodeWord 0x2132 = .and 3 1 2 ∧ decodeWord 0x7053 = .or 5 0 7 ∧
    decodeWord 0x7964 = .xor 6 9 7 := by decide

theorem test_decode_shift : decodeWord 0x1F35 = .shifti 3 31 0 ∧ decodeWord 0x7F75 = .shifti 7 31 3 ∧
    decodeWord 0xC535 = .shiftr 3 5 2 ∧ decodeWord 0xF535 = .shiftr 3 5 3 ∧ decodeWord 0x9535 = .shiftr 3 5 0 := by decide

theorem test_decode_load_store : decodeWord 0x0016 = .ldn 1 0 1 false ∧ decodeWord 0xC216 = .ldn 1 2 4 false ∧
    decodeWord 0x6016 = .ldn 1 0 2 true ∧ decodeWord 0xF216 = .ldn 1 2 4 true ∧ decodeWord 0x8127 = .stn 2 1 3 false ∧
    decodeWord 0xE127 = .stn 2 1 4 true ∧ decodeWord 0x3127 = .stn 2 1 1 true := by decide

theorem test_decode_conditional : decodeWord 0x2308 = .cadd 0 3 .ne ∧ decodeWord 0xF0F8 = .cadd 15 0 .c15 ∧
    decodeWord 0x1149 = .csub 4 1 .t ∧ decodeWord 0x014A = .cand 4 1 .f ∧ decodeWord 0x114B = .cor 4 1 .t ∧
    decodeWord 0xD00C = .cxor 0 0 .ge := by decide

theorem test_decode_signed_and_reserved : decodeWord 0x210D = .adds 0 1 2 ∧ decodeWord 0x210E = .subs 0 1 2 ∧
    decodeWord 0x000F = .rsv 0 ∧ decodeWord 0xA00F = .rsv 0xA00 := by decide

/-- Bytes: little-endian, the bytes after them kept; fewer than two are no instruction (30_encoding.md section 3). -/
theorem test_decode_bytes : decode [0x16, 0x60, 0xAB] = .ok (.ldn 1 0 2 true, [0xAB]) ∧ decode [0x16] = .error .truncated ∧
    decodeTableWord 16 0x6016 = some (.ldn 1 0 2 true) := by decide

/-- Lengths in the instruction stream (95_test_vectors.md section 2), from the word and from the instruction. -/
theorem test_length : streamLength 0x6016 = 4 ∧ streamLength 0xC216 = 2 ∧ streamLength 0x3127 = 4 ∧
    streamLength 0x7F75 = 2 ∧ (decodeWord 0x6016).length = 4 ∧ (decodeWord 0x2308).length = 2 := by decide

/-! One step, by the vectors of 95_test_vectors.md section 4. -/

/-- V-ALU-17. -/
theorem test_add_carry : after (launch arith 0x100 0x2130 [(1, 0xFFFFFFFF), (2, 1)])
    (fun t => (t.pc, t.readReg 3, t.flags, t.retired)) = some (0x102, 0, ⟨true, false, true, false⟩, 1) := by decide +kernel

/-- V-ALU-05: x[0] reads A + 2, and writing it jumps. -/
theorem test_add_jumps : after (launch plain 0x100 0x1000 [(1, 0x10)]) (fun t => (t.pc, t.flags)) =
    some (0x112, ⟨false, false, false, false⟩) := by decide +kernel

/-- V-ALU-24. -/
theorem test_sub_overflow : after (launch arith 0x100 0x2131 [(1, 0x7FFFFFFF), (2, 0xFFFFFFFF)])
    (fun t => (t.readReg 3, t.flags)) = some (0x80000000, ⟨false, true, true, true⟩) := by decide +kernel

/-- V-ALU-10. -/
theorem test_and : after (launch arith 0x100 0x2132 [(1, 0xF0F0F0F0), (2, 0xFF00FF00)])
    (fun t => (t.readReg 3, t.flags)) = some (0xF000F000, ⟨false, false, false, false⟩) := by decide +kernel

/-- V-ALU-11. -/
theorem test_or : after (launch plain 0x100 0x2133 [(1, 0xF0F0F0F0), (2, 0xFF00FF00)]) (fun t => t.readReg 3) =
    some 0xFFF0FFF0 := by decide +kernel

/-- V-ALU-12. -/
theorem test_xor : after (launch plain 0x100 0x2134 [(1, 0xF0F0F0F0), (2, 0xFF00FF00)]) (fun t => t.readReg 3) =
    some 0x0FF00FF0 := by decide +kernel

/-- V-SH-22: `register` mode with word[14] = 1, the kind is x[2]. -/
theorem test_shifti_kind_in_register : after (launch plain 0x100 0x4435 [(3, 0x80000000), (2, 1)])
    (fun t => (t.readReg 3, t.refused)) = some (0x08000000, false) := by decide +kernel

/-- V-SH-10. -/
theorem test_shifti_literal16 : after (launch literal16 0x100 0x4035 [(3, 0x80000001)]) (fun t => t.readReg 3) =
    some 0xFFFF0001 := by decide +kernel

/-- V-SH-16: an amount of 32. -/
theorem test_shiftr_whole_amount : after (launch byInstruction 0x100 0xC535 [(3, 0x80000000), (5, 0x20)])
    (fun t => t.readReg 3) = some 0xFFFFFFFF := by decide +kernel

/-- V-SH-18: the amount is the old x[d]. -/
theorem test_shiftr_source_is_destination : after (launch byInstruction 0x100 0x8335 [(3, 3)]) (fun t => t.readReg 3) =
    some 0x18 := by decide +kernel

/-- V-SH-12 and V-FL-09: an unknown kind is refused, and the next step is none.  x[3] is not claimed. -/
theorem test_unknown_shift_kind : after (launch byInstruction 0x100 0x6435 [(3, 0x81)])
    (fun t => (t.pc, t.refused, t.loop, t.retired, (after t (fun _ => ())).isNone)) =
    some (0x102, true, .running, 1, true) := by decide +kernel

/-- V-LS-09: the base x[0] is read after the skip. -/
theorem test_ldn_skips : after (setMem [(0x102, 0x34), (0x103, 0x12), (0x104, 0x78), (0x105, 0x56)]
      (launch plain 0x100 0x6016 [])) (fun t => (t.pc, t.readReg 1)) = some (0x104, 0x5678) := by decide +kernel

/-- V-LS-30: OutOfBounds at the third byte, x[1] kept. -/
theorem test_ldn_out_of_bounds : after (launch plain 0x100 0xC216 [(1, 0x77), (2, 0xFFFE)])
    (fun t => (t.pc, t.readReg 1, t.boundsFault, t.boundsAddr, t.loop)) =
    some (0x102, 0x77, true, 0x10000, .faulted) := by decide +kernel

/-- V-LS-29: the last display cell, then the input byte, which is discarded. -/
theorem test_stn_display : after (launch plain 0x100 0x4127 [(1, 0xBBAA), (2, 0xFF18)])
    (fun t => (t.pc, t.getPixel 4 4, t.draws, t.loop)) = some (0x102, 0xAA, 0, .running) := by decide +kernel

/-- V-LS-21: the PC is stored after the skip. -/
theorem test_stn_stores_pc : after (launch plain 0x100 0xE017 [(1, 0x1000)])
    (fun t => (t.pc, t.mem.read 0x1000, t.mem.read 0x1001, t.mem.read 0x1002)) = some (0x104, 0x04, 0x01, 0x00) := by
  decide +kernel

/-- V-CC-01. -/
theorem test_cadd : after (launch plain 0x100 0x1148 [(1, 0xFFFF), (4, 0x12345678)]) (fun t => t.readReg 4) =
    some 0x12355677 := by decide +kernel

/-- V-CC-18: LT with S set and V clear. -/
theorem test_cadd_lt : after { launch plain 0x100 0xC148 [(1, 1), (4, 1)] with flags := ⟨false, true, false, false⟩ }
    (fun t => t.readReg 4) = some 2 := by decide +kernel

/-- V-CC-24: an invalid code does not jump. -/
theorem test_csub_invalid : after (launch plain 0x100 0xA109 [(1, 0x40)]) (fun t => (t.pc, t.fault, t.loop)) =
    some (0x102, true, .faulted) := by decide +kernel

/-- V-CC-03. -/
theorem test_csub : after (launch plain 0x100 0x1149 [(1, 0xFFFF), (4, 0x12345678)]) (fun t => t.readReg 4) =
    some 0x12335679 := by decide +kernel

/-- V-CC-05. -/
theorem test_cand : after (launch plain 0x100 0x114A [(1, 0xFFFF), (4, 0x12345678)]) (fun t => t.readReg 4) =
    some 0x00005678 := by decide +kernel

/-- V-CC-07. -/
theorem test_cor : after (launch plain 0x100 0x114B [(1, 0xFFFF), (4, 0x12345678)]) (fun t => t.readReg 4) =
    some 0x1234FFFF := by decide +kernel

/-- V-CC-09 and V-CC-10. -/
theorem test_cxor : after (launch plain 0x100 0x114C [(1, 0xFFFF), (4, 0x12345678)]) (fun t => t.readReg 4) =
      some 0x1234A987 ∧
    after (launch plain 0x100 0x014C [(1, 0xFFFF), (4, 0x12345678)]) (fun t => t.readReg 4) = some 0x12345678 := by
  decide +kernel

/-- V-SG-05. -/
theorem test_adds_overflow : after (launch arith 0x100 0x213D [(1, 0x7FFFFFFF), (2, 1)])
    (fun t => (t.readReg 3, t.flags)) = some (0x80000000, ⟨false, true, false, true⟩) := by decide +kernel

/-- V-SG-04. -/
theorem test_subs_negative : after (launch arith 0x100 0x213E [(1, 0xA), (2, 0xFFFFFFFD)])
    (fun t => (t.readReg 3, t.flags)) = some (0xD, ⟨false, false, true, false⟩) := by decide +kernel

/-- V-RV-02. -/
theorem test_rsv : after (launch plain 0x10 0xFFFF [(1, 1)]) (fun t => (t.pc, t.readReg 1, t.retired)) =
    some (0x12, 1, 1) := by decide +kernel

/-- V-FL-02: the second byte of the fetch is out of bounds. -/
theorem test_fetch_out_of_bounds : after (setRegs [(0, 0xFFFF)] (State.resetWith plain))
    (fun t => (t.pc, t.boundsFault, t.boundsAddr, t.loop, t.retired)) = some (0xFFFF, true, 0x10000, .faulted, 0) := by
  decide +kernel

/-- V-FL-05: a fetch at the top of the address space, and the advance wraps. -/
theorem test_fetch_wraps : after (setRegs [(0, 0xFFFFFFFE)] (State.resetWith wholeSpace)) (fun t => (t.pc, t.retired)) =
    some (0, 1) := by decide +kernel

/-- The host's two questions, on one word: the decoder gives the row, and a step after reset runs it. -/
theorem test_withFetchWord : after (State.reset.withFetchWord 16 0x000F) (fun t => (t.pc, t.retired)) = some (2, 1) := by
  decide +kernel

/-! Witnesses: for each obligation with hypotheses, a state and operands that meet them together. -/

theorem reset_inv : State.reset.Inv :=
  ⟨by decide, by decide, by decide, by decide, by decide, by decide, by decide⟩

theorem reset_ready : State.reset.Ready := ⟨by decide, by decide, by decide⟩

/-- The state after an invalid condition and the state after an OutOfBounds, both in the invariant. -/
def afterInvalid : State := { State.reset with fault := true, loop := .faulted }
def afterBounds : State := { State.reset with boundsFault := true, boundsAddr := 0x10000, loop := .faulted }

theorem afterInvalid_inv : afterInvalid.Inv :=
  ⟨by decide, by decide, by decide, by decide, by decide, by decide, by decide⟩

theorem afterBounds_inv : afterBounds.Inv :=
  ⟨by decide, by decide, by decide, by decide, by decide, by decide, by decide⟩

theorem test_meets_StartStatesMeetTheInvariant : Config.reference.Legal ∧ wholeSpace.Legal ∧
    State.reset.Launch ∧ State.reset.cfg.Legal ∧ State.reset.mem.wf ∧ State.reset.mem.Visible :=
  ⟨by decide, by decide, ⟨by decide, by decide, by decide, by decide, by decide⟩, by decide, by decide, by decide⟩

theorem test_meets_EveryStepKeepsTheInvariant : State.reset.Inv ∧ ∃ t, step State.reset = .next t := ⟨reset_inv, _, rfl⟩

/-- Both clauses, each at the boundary: an image of one byte more than MEM_SIZE, and one of MEM_SIZE bytes. -/
theorem test_meets_ImageLoadCopiesFromAddressZero : Config.reference.Legal ∧
    Config.reference.memSize < (List.replicate 65537 (1 : Byte)).length ∧
    (List.replicate 65536 (1 : Byte)).length ≤ Config.reference.memSize := by
  refine ⟨by decide, ?_, ?_⟩ <;> rw [List.length_replicate] <;> decide

theorem test_meets_DecodeUndoesEncode : Instr.WellFormed (.ldn 15 0 4 true) = true ∧
    Instr.WellFormed (.stn 0 15 1 false) = true ∧ Instr.WellFormed (.rsv 0xFFF) = true := by decide

/-- Both halves of the encoder's statement: op 15, and a word with an ignored bit set. -/
theorem test_meets_EncodeUndoesDecode : opField 0xFFFF = 15 ∧ opField 0xF535 ≠ 15 ∧
    ignoredBits .instruction 0xF535 = 0x1000 := by decide

/-- Words that differ in ignored bits only: bit 12 of SHIFTR, bit 13 in `register` mode, and RSV. -/
theorem test_meets_IgnoredBitsChangeNothing :
    ((0xC535 ^^^ 0xF535 : HalfWord) &&& ~~~ignoredBits State.reset.cfg.shiftSelect 0xC535 = 0) ∧
    ((0x000F ^^^ 0xFFFF : HalfWord) &&& ~~~ignoredBits State.reset.cfg.shiftSelect 0x000F = 0) := by decide

/-- Both lengths: `ADD r3, r1, r2` and `LD2S r1, (r0)`. -/
theorem test_meets_PcLeavesPastTheInstruction :
    (∃ t, destination (decodeWord 0x2130) ≠ some 0 ∧ exec (decodeWord 0x2130) State.reset = .next t ∧
      t.boundsFault = false) ∧
    (∃ t, destination (decodeWord 0x6016) ≠ some 0 ∧ exec (decodeWord 0x6016) State.reset = .next t ∧
      t.boundsFault = false) :=
  ⟨⟨_, by decide, rfl, rfl⟩, ⟨_, by decide, rfl, rfl⟩⟩

theorem reset_inBounds : InBounds State.reset.cfg.memSize State.reset.pc 2 := by
  unfold InBounds
  decide

theorem test_meets_StepRunsTheDecodedInstruction : State.reset.Ready ∧
    InBounds State.reset.cfg.memSize State.reset.pc 2 ∧ State.reset.pc.toNat + 1 < 0xFF00 ∧
    decode [State.reset.mem.read State.reset.pc.toNat, State.reset.mem.read (State.reset.pc.toNat + 1)] =
      .ok (.add 0 0 0, []) :=
  ⟨reset_ready, reset_inBounds, by decide, by decide⟩

theorem test_meets_EveryInstructionCompletes : State.reset.Ready := reset_ready

/-- A PC whose second byte is the first out of bounds. -/
def atEdge : State := setRegs [(0, 0xFFFF)] State.reset

theorem atEdge_firstOut : FirstOut atEdge.cfg.memSize atEdge.pc 2 0x10000 := by
  refine ⟨1, ?_⟩
  decide

theorem test_meets_FetchIsCheckedAndLittleEndian : FirstOut atEdge.cfg.memSize atEdge.pc 2 0x10000 ∧
    InBounds State.reset.cfg.memSize State.reset.pc 2 := ⟨atEdge_firstOut, reset_inBounds⟩

theorem test_meets_FetchOutOfBoundsEndsTheRun : atEdge.Ready ∧ FirstOut atEdge.cfg.memSize atEdge.pc 2 0x10000 :=
  ⟨⟨by decide, by decide, by decide⟩, atEdge_firstOut⟩

theorem test_meets_FaultedTakesNoStep : afterInvalid.loop = .faulted ∧ State.reset.loop ≠ .faulted := by decide

/-- Both clauses: a refused state, and a state with a MEM_SIZE one byte too small. -/
theorem test_meets_RefusedTakesNoStep :
    (State.reset.loop = .running ∧ { State.reset with refused := true }.refused = true) ∧
    (State.resetWith { plain with memSize := 0xFF1F }).loop = .running ∧
    (State.resetWith { plain with memSize := 0xFF1F }).refused = false ∧
    ¬ (State.resetWith { plain with memSize := 0xFF1F }).cfg.Legal := by decide

/-- A step that leaves LOOP in RUNNING, and one that moves it to FAULTED (`CADD.c10`). -/
theorem test_meets_LoopMovesToFaultedExactlyOnAFault :
    (State.reset.Inv ∧ ∃ t, step State.reset = .next t ∧ t.loop = .running) ∧
    ((State.reset.withFetchWord 16 0xA008).Inv ∧
      ∃ t, step (State.reset.withFetchWord 16 0xA008) = .next t ∧ t.loop = .faulted) :=
  ⟨⟨reset_inv, _, rfl, by decide +kernel⟩,
    ⟨by decide +kernel, by decide +kernel, by decide +kernel, by decide, by decide, by decide, by decide⟩, _, rfl,
    by decide +kernel⟩

/-- Both clauses: a fetch in bounds and one out of bounds. -/
theorem test_meets_RetiredCountsExecutedInstructions :
    ((∃ t, step State.reset = .next t) ∧ InBounds State.reset.cfg.memSize State.reset.pc 2) ∧
    ((∃ t, step atEdge = .next t) ∧ ¬ InBounds atEdge.cfg.memSize atEdge.pc 2) := by
  refine ⟨⟨⟨_, rfl⟩, reset_inBounds⟩, ⟨_, rfl⟩, fun h => ?_⟩
  exact absurd (h 1 (by decide)) (by decide)

theorem test_meets_OnlyInvalidConditionsSetFault : ∃ t, exec (.cxor 4 4 .c15) State.reset = .next t ∧ t.fault = true ∧
    IsConditional (.cxor 4 4 .c15) .c15 ∧ InvalidCode .c15 :=
  ⟨_, rfl, rfl, ⟨4, 4, by decide⟩, by unfold InvalidCode; decide⟩

/-- A state for the load and the store: x[2] points two bytes below MEM_SIZE. -/
def nearTop : State := setRegs [(0, 0x102), (2, 0xFFFE)] State.reset

theorem nearTop_load_out : FirstOut nearTop.cfg.memSize (loadBase 1 2 false nearTop) 4 0x10000 := by
  refine ⟨2, ?_⟩
  decide

theorem nearTop_store_out : FirstOut nearTop.cfg.memSize (storeBase 2 false nearTop) 3 0x10000 := by
  refine ⟨2, ?_⟩
  decide

theorem test_meets_OnlyMemoryAccessesSetBoundsFault :
    (∃ t, exec (.ldn 1 2 4 false) nearTop = .next t ∧ t.boundsFault = true) ∧
    (∃ t, exec (.stn 2 1 3 false) nearTop = .next t ∧ t.boundsFault = true) ∧
    (∃ t, exec (.ldn 1 2 2 false) nearTop = .next t ∧ t.boundsFault = false) :=
  ⟨⟨_, rfl, by decide⟩, ⟨_, rfl, by decide⟩, ⟨_, rfl, by decide +kernel⟩⟩

/-- No fault, the first cause and the second. -/
theorem test_meets_FaultCauseIsReadFromTheFlags : State.reset.Inv ∧ (afterInvalid.Inv ∧ afterInvalid.fault = true) ∧
    (afterBounds.Inv ∧ afterBounds.boundsFault = true) :=
  ⟨reset_inv, ⟨afterInvalid_inv, rfl⟩, afterBounds_inv, rfl⟩

theorem test_meets_InvalidConditionSuppressesTheEffect : ∃ u, (State.reset.withFetchWord 16 0xA008).Ready ∧
    fetch (State.reset.withFetchWord 16 0xA008) = .ok (0xA008, u) ∧ IsConditional (decodeWord 0xA008) .c10 ∧
    InvalidCode .c10 :=
  ⟨State.reset.withFetchWord 16 0xA008, ⟨by decide, by decide, by decide⟩, by decide +kernel, ⟨0, 0, by decide⟩,
    by unfold InvalidCode; decide⟩

theorem test_meets_LoadStoreOutOfBoundsIsPrecise :
    FirstOut nearTop.cfg.memSize (loadBase 1 2 false nearTop) 4 0x10000 ∧
    FirstOut nearTop.cfg.memSize (storeBase 2 false nearTop) 3 0x10000 := ⟨nearTop_load_out, nearTop_store_out⟩

/-- The four invalid codes. -/
theorem test_meets_ConditionCodesAnswerTheTable : ∀ code ∈ [(10 : BitVec 4), 11, 14, 15],
    code = 10 ∨ code = 11 ∨ code = 14 ∨ code = 15 := by decide

theorem test_meets_ConditionsAreFixedWhileFlagsAreFalse : State.reset.flags = ⟨false, false, false, false⟩ := by decide

/-- Every clause: no flag in `none`; the four operations in `arith`; another operation. -/
theorem test_meets_FlagsAreWrittenByFourOpsInArithOnly :
    (∃ t, exec (.add 3 1 2) State.reset = .next t ∧ State.reset.cfg.flagMode = .none) ∧
    (∃ t, exec (.subs 3 1 2) (State.resetWith arith) = .next t ∧ (State.resetWith arith).cfg.flagMode = .arith) ∧
    (∃ t, exec (.and 3 1 2) (State.resetWith arith) = .next t ∧ (Instr.and 3 1 2).opcode ≠ 0 ∧
      (Instr.and 3 1 2).opcode ≠ 1 ∧ (Instr.and 3 1 2).opcode ≠ 13 ∧ (Instr.and 3 1 2).opcode ≠ 14) :=
  ⟨⟨_, rfl, rfl⟩, ⟨_, rfl, rfl⟩, ⟨_, rfl, by decide, by decide, by decide, by decide⟩⟩

/-- The clauses on the flags of ADD, SUB, ADDS and SUBS: both values of FLAG_MODE. -/
theorem test_meets_flag_modes : (State.resetWith plain).cfg.flagMode = .none ∧
    (State.resetWith arith).cfg.flagMode = .arith := by decide

/-- The clauses on the mask `literal16`: a value with bit 31 clear and one with it set. -/
theorem test_meets_ShiftFunctionsAreUnbounded : (0x7FFFFFFF : Word).msb = false ∧ (0x80000000 : Word).msb = true := by
  decide

/-- Every clause: both modes, both values of word[14], and the smallest value that is no kind. -/
theorem test_meets_ShiftKindIsSelectedByTheMode : State.reset.cfg.shiftSelect = .register ∧
    (1 : BitVec 2).getLsbD 1 = false ∧ (2 : BitVec 2).getLsbD 1 = true ∧
    (State.resetWith byInstruction).cfg.shiftSelect = .instruction ∧ 3 ≤ (3 : Word).toNat := by decide

theorem test_meets_ShiftiShiftsInPlaceByTheImmediate :
    ShiftKind.ofWord (shiftSelector 0 (State.resetWith byInstruction)) = some .left ∧
    ShiftKind.ofWord (shiftSelector 1 (State.resetWith byInstruction)) = some .logicalRight ∧
    ShiftKind.ofWord (shiftSelector 2 (State.resetWith byInstruction)) = some .arithmeticRight := by decide

theorem test_meets_ShiftrShiftsInPlaceByARegister :
    ShiftKind.ofWord (shiftSelector 2 (setRegs [(2, 0)] State.reset)) = some .left ∧
    ShiftKind.ofWord (shiftSelector 3 (setRegs [(2, 1)] State.reset)) = some .logicalRight ∧
    ShiftKind.ofWord (shiftSelector 0 (setRegs [(0, 2)] State.reset)) = some .arithmeticRight := by decide

theorem test_meets_UnknownShiftKindIsRefused :
    ShiftKind.ofWord (shiftSelector 3 (State.resetWith byInstruction)) = none ∧
    ShiftKind.ofWord (shiftSelector 2 (setRegs [(2, 3)] State.reset)) = none ∧ State.reset.loop = .running := by decide

/-- In bounds up to the last byte: a load of 2 at MEM_SIZE − 2, with and without the skip. -/
theorem test_meets_LoadWritesTheBytesRead : ByteCount 2 ∧
    InBounds nearTop.cfg.memSize (loadBase 1 2 true nearTop) 2 ∧
    InBounds nearTop.cfg.memSize (loadBase 1 2 false nearTop) 2 := by
  unfold InBounds
  decide

/-- Four bytes that end at the last byte of plain memory. -/
theorem test_meets_LoadFromMemoryIsLittleEndian : ByteCount 4 ∧ State.reset.cfg.Legal ∧
    ∀ i < 4, (loadBase 1 2 false (setRegs [(2, 0xFEFC)] State.reset) + BitVec.ofNat 32 i).toNat < 0xFF00 := by decide

/-- Every clause: a store of 4 at 0xFEFE has bytes in memory and in the display; a store of 4 at 0xFF15 ends in the last
cell; other bytes and cells are not covered. -/
theorem test_meets_StoreWritesTheBytesAndNothingElse : ByteCount 4 ∧ State.reset.mem.wf ∧
    InBounds State.reset.cfg.memSize (storeBase 2 false (setRegs [(2, 0xFEFE)] State.reset)) 4 ∧
    (storeBase 2 false (setRegs [(2, 0xFEFE)] State.reset) + BitVec.ofNat 32 1).toNat = 0xFEFF ∧
    (storeBase 2 false (setRegs [(2, 0xFEFE)] State.reset) + BitVec.ofNat 32 2).toNat = 0xFF00 ∧
    InBounds State.reset.cfg.memSize (storeBase 2 false (setRegs [(2, 0xFF15)] State.reset)) 4 ∧
    (storeBase 2 false (setRegs [(2, 0xFF15)] State.reset) + BitVec.ofNat 32 3).toNat = 0xFF18 ∧
    ¬ Covers 0xFEFE 4 0xFEFD ∧ ¬ Covers 0xFEFE 4 0xFF02 := by
  unfold InBounds Covers
  decide

/-- Every clause: d = s1 ≠ 0; s1 = 0 ≠ d; d = s1 = 0; d, s1 and 0 apart. -/
theorem test_meets_OperandsAreReadAfterTheSkip : ((2 : Reg) = 2 ∧ (2 : Reg) ≠ 0) ∧ ((0 : Reg) = 0 ∧ (1 : Reg) ≠ 0) ∧
    ((2 : Reg) ≠ 0 ∧ (1 : Reg) ≠ 2) := by decide

/-- x[2] points at the last four bytes of plain memory. -/
def nearEnd : State := setRegs [(0, 0x102), (1, 0xCAFEBABE), (2, 0xFEFC)] State.reset

/-- The store's own next state is one that leaves the bytes and the address alone. -/
theorem test_meets_LoadAfterStoreGivesTheValue : ∃ t, ByteCount 4 ∧ nearEnd.mem.wf ∧ nearEnd.cfg.Legal ∧ (2 : Reg) ≠ 0 ∧
    (3 : Reg) ≠ 0 ∧ (3 : Reg) ≠ 2 ∧ (nearEnd.readReg 2).toNat + 4 ≤ 0xFF00 ∧ exec (.stn 2 1 4 true) nearEnd = .next t ∧
    t.cfg = nearEnd.cfg ∧ t.readReg 2 = nearEnd.readReg 2 :=
  ⟨_, by decide, by decide, by decide, by decide, by decide, by decide, by decide, rfl, by decide +kernel,
    by decide +kernel⟩

/-- Every range at both ends. -/
theorem test_meets_ReadFollowsTheAddressMap : State.reset.cfg.Legal ∧ (0xFEFF : Word).toNat < 0xFF00 ∧
    (0xFF00 ≤ (0xFF18 : Word).toNat ∧ (0xFF18 : Word).toNat ≤ 0xFF18 ∧
      (4 : Fin 5).val = ((0xFF18 : Word).toNat - 0xFF00) / 5 ∧ (4 : Fin 5).val = ((0xFF18 : Word).toNat - 0xFF00) % 5) ∧
    (0xFF00 ≤ (0xFF00 : Word).toNat ∧ (0xFF00 : Word).toNat ≤ 0xFF18 ∧
      (0 : Fin 5).val = ((0xFF00 : Word).toNat - 0xFF00) / 5 ∧ (0 : Fin 5).val = ((0xFF00 : Word).toNat - 0xFF00) % 5) ∧
    (0xFF19 ≤ (0xFF19 : Word).toNat ∧ (0xFF19 : Word).toNat ≤ 0xFF1F) ∧
    (0xFF19 ≤ (0xFF1F : Word).toNat ∧ (0xFF1F : Word).toNat ≤ 0xFF1F) ∧
    State.reset.cfg.memSize ≤ (0x10000 : Word).toNat := by decide

/-- Every range at both ends, and a memory in canonical form. -/
theorem test_meets_WriteFollowsTheAddressMap : State.reset.cfg.Legal ∧ State.reset.mem.wf ∧
    (0xFEFF : Word).toNat < 0xFF00 ∧ (0xFF00 ≤ (0xFF00 : Word).toNat ∧ (0xFF18 : Word).toNat ≤ 0xFF18) ∧
    (0xFF19 ≤ (0xFF19 : Word).toNat ∧ (0xFF1F : Word).toNat ≤ 0xFF1F) ∧
    State.reset.cfg.memSize ≤ (0xFFFFFFFF : Word).toNat := by decide

theorem test_meets_UnmappedReadsZeroAndIgnoresWrites :
    (0xFF20 ≤ (0xFF20 : Word).toNat ∧ (0xFF20 : Word).toNat < State.reset.cfg.memSize) ∧
    (0xFF20 ≤ (0xFFFF : Word).toNat ∧ (0xFFFF : Word).toNat < State.reset.cfg.memSize) := by decide

theorem test_meets_InputBytesAreSeparateDraws : State.reset.cfg.Legal ∧
    (0xFF19 ≤ (0xFF19 : Word).toNat ∧ (0xFF19 : Word).toNat < 0xFF1F) ∧
    (0xFF19 ≤ (0xFF1E : Word).toNat ∧ (0xFF1E : Word).toNat < 0xFF1F) := by decide

theorem test_meets_FetchSeesAnEarlierStore : State.reset.cfg.Legal ∧ State.reset.mem.wf ∧
    State.reset.pc.toNat + 1 < 0xFF00 := by decide

theorem test_meets_OnlyStoresChangeMemory : (∃ t, exec (.ldn 1 2 2 false) nearTop = .next t) ∧
    (Instr.ldn 1 2 2 false).opcode ≠ 7 := ⟨⟨_, rfl⟩, by decide⟩

/-- The three clauses of every conditional operation: a condition that holds, one that does not, and an invalid one. -/
theorem test_meets_conditional_operations : (condEval .t State.reset).1 = true ∧
    ((condEval .f State.reset).1 = false ∧ ¬ InvalidCode .f) ∧ InvalidCode .c14 := by
  unfold InvalidCode
  decide

theorem test_meets_ReservedOpcodeDoesNothing : (State.reset.withFetchWord 16 0xFFFF).Ready ∧
    (State.reset.withFetchWord 16 0xFFFF).fault = false ∧ (State.reset.withFetchWord 16 0xFFFF).boundsFault = false ∧
    fetch (State.reset.withFetchWord 16 0xFFFF) = .ok (0xFFFF, State.reset.withFetchWord 16 0xFFFF) ∧
    decodeWord 0xFFFF = .rsv 0xFFF :=
  ⟨⟨by decide, by decide, by decide⟩, by decide, by decide, by decide +kernel, by decide⟩

theorem test_meets_PseudoInstructionsHaveTheirEffects : State.reset.cfg.flagMode = .none ∧
    (condEval .ne State.reset).1 = true ∧ (State.resetWith byInstruction).cfg.shiftSelect = .instruction := by decide

def selfJump : State := setRegs [(7, 2)] (State.reset.withFetchWord 16 0x7001)

/-- `SUB r0, r0, r7` (0x7001) at address 0 with x[7] = 2. -/
theorem test_meets_JumpToSelfIsIdle : selfJump.Ready ∧ selfJump.fault = false ∧ selfJump.boundsFault = false ∧
    selfJump.cfg.flagMode = .none ∧ (7 : Reg) ≠ 0 ∧ selfJump.readReg 7 = 2 ∧ selfJump.pc.toNat + 1 < 0xFF00 ∧
    decode [selfJump.mem.read selfJump.pc.toNat, selfJump.mem.read (selfJump.pc.toNat + 1)] = .ok (.sub 0 0 7, []) :=
  ⟨⟨by decide, by decide, by decide⟩, by decide, by decide, by decide, by decide, by decide, by decide, by decide +kernel⟩

end Sys2Proof.Tests
end

/-! The unmapped range of the address map (spec/20_memory.md R32, R46). -/

namespace Sys2Proof.Machine

/-- An access of one byte is in bounds when its address lies below MEM_SIZE (R34). -/
theorem inBounds_one {m : Nat} {a : Word} (h : a.toNat < m) : InBounds m a 1 := by
  intro i hi
  obtain rfl : i = 0 := by omega
  simpa using h

/-- A read of one byte in bounds is one read of the multiplexer, zero-extended (R40, R42). -/
theorem memRead_one {a : Word} {s : State} (h : a.toNat < s.cfg.memSize) :
    memRead a 1 s = .ok ((read8 a s).1.setWidth 32, (read8 a s).2) := by
  rw [memRead_ok (inBounds_one h)]
  simp [readBytes]

/-- A write of one byte in bounds is one write of the multiplexer, of the low byte of the value (R41, R42). -/
theorem memWrite_one {a : Word} {s : State} (v : Word) (h : a.toNat < s.cfg.memSize) :
    memWrite a 1 v s = .ok (write8 a (v.setWidth 8) s) :=
  memWrite_ok (inBounds_one h)

/-- The multiplexer reads 0 above the input range, and changes nothing (R32, R46). -/
theorem read8_unmapped {a : Word} (s : State) (h : 0xFF20 ≤ a.toNat) : read8 a s = (0, s) := by
  unfold read8
  rw [if_neg (by omega), if_neg (by omega), if_neg (by omega)]

/-- The multiplexer drops a write above the display range: the input range (D22) and the unmapped range (R46). -/
theorem write8_above_display {a : Word} (b : Byte) (s : State) (h : 0xFF19 ≤ a.toNat) : write8 a b s = s := by
  unfold write8
  rw [if_neg (by omega), if_neg (by omega)]

/-- Settles O48: one byte in bounds is one access of the multiplexer, which answers 0 and drops the write there. -/
theorem unmappedReadsZeroAndIgnoresWrites : Obligations.UnmappedReadsZeroAndIgnoresWrites := by
  intro a v s hunmapped hbound
  constructor
  · rw [memRead_one hbound, read8_unmapped s hunmapped]
    rfl
  · rw [memWrite_one v hbound, write8_above_display _ s (by omega)]

end Sys2Proof.Machine

/-! Every word is one instruction, told by its low nibble (spec/30_encoding.md R60, R63). -/

namespace Sys2Proof

/-- The byte count a word gives is one a load or a store can have (R54, R91). -/
theorem byteCount_countField (w : HalfWord) : ByteCount (countField w) :=
  ⟨Nat.le_add_left .., (w.extractLsb' 14 2).isLt⟩

/-- The decoder answers well-formed instructions only: a load or a store takes its byte count from two bits. -/
theorem wellFormed_decodeWord (w : HalfWord) : (decodeWord w).WellFormed = true := by
  have hcount : decide (ByteCount (countField w)) = true := decide_eq_true (byteCount_countField w)
  unfold decodeWord
  split
  case h_6 => split <;> rfl
  case h_7 => exact hcount
  case h_8 => exact hcount
  all_goals rfl

/-- The opcode of a word's instruction is the word's low nibble: each of the 16 branches of the decoder answers an
instruction of its own opcode, both modes of op 5 included. -/
theorem opcode_decodeWord (w : HalfWord) : (decodeWord w).opcode = opField w := by
  apply BitVec.eq_of_toNat_eq
  unfold decodeWord
  split
  case h_6 hop => split <;> exact hop.symm
  case h_16 =>
    have hlt : (opField w).toNat < 16 := (opField w).isLt
    show 15 = (opField w).toNat
    simp only [imp_false] at *
    omega
  all_goals exact Eq.symm ‹_›

/-- On op 5 the decoder splits on word[15]. -/
theorem decodeWord_shift {w : HalfWord} (hop : opField w = 5) :
    decodeWord w = if modeField w then .shiftr (dField w) (s1Field w) (selField w)
      else .shifti (dField w) (immField w) (selField w) := by
  simp only [decodeWord, hop]
  rfl

/-- The words of SHIFTI: op 5 with word[15] clear (R60, R88). -/
theorem decodeWord_eq_shifti_iff (w : HalfWord) :
    (∃ d imm sel, decodeWord w = .shifti d imm sel) ↔ opField w = 5 ∧ modeField w = false := by
  constructor
  · rintro ⟨d, imm, sel, hw⟩
    have hop : opField w = 5 := by rw [← opcode_decodeWord, hw]; rfl
    rw [decodeWord_shift hop] at hw
    cases hm : modeField w with
    | false => exact ⟨hop, rfl⟩
    | true => simp [hm] at hw
  · rintro ⟨hop, hm⟩
    exact ⟨_, _, _, by rw [decodeWord_shift hop, hm]; rfl⟩

/-- The words of SHIFTR: op 5 with word[15] set (R60, R89). -/
theorem decodeWord_eq_shiftr_iff (w : HalfWord) :
    (∃ d s1 sel, decodeWord w = .shiftr d s1 sel) ↔ opField w = 5 ∧ modeField w = true := by
  constructor
  · rintro ⟨d, s1, sel, hw⟩
    have hop : opField w = 5 := by rw [← opcode_decodeWord, hw]; rfl
    rw [decodeWord_shift hop] at hw
    cases hm : modeField w with
    | false => simp [hm] at hw
    | true => exact ⟨hop, rfl⟩
  · rintro ⟨hop, hm⟩
    exact ⟨_, _, _, by rw [decodeWord_shift hop, hm]; rfl⟩

/-- Settles O7: the decoder's answer is well-formed, has the low nibble for its opcode, and on op 5 is told by word[15]. -/
theorem everyWordDecodesByItsLowNibble : Obligations.EveryWordDecodesByItsLowNibble := fun w =>
  ⟨wellFormed_decodeWord w, opcode_decodeWord w, decodeWord_eq_shifti_iff w, decodeWord_eq_shiftr_iff w⟩

end Sys2Proof

/-! Register-register arithmetic and logic (spec/40_alu.md R77 to R81). -/

namespace Sys2Proof

/-- The word of format R as a number: the four nibbles add up, none overlaps another (R53). -/
theorem encodeR_toNat (s2 s1 d : Reg) (op : BitVec 4) :
    (encodeR s2 s1 d op).toNat = s2.val * 2 ^ 12 + s1.val * 2 ^ 8 + d.val * 2 ^ 4 + op.toNat := by
  have h2 : (place (Reg.field s2) 12).toNat = s2.val * 2 ^ 12 := Machine.place_toNat _ 12 (by decide)
  have h1 : (place (Reg.field s1) 8).toNat = s1.val * 2 ^ 8 := Machine.place_toNat _ 8 (by decide)
  have hd : (place (Reg.field d) 4).toNat = d.val * 2 ^ 4 := Machine.place_toNat _ 4 (by decide)
  have hop : (place op 0).toNat = op.toNat * 2 ^ 0 := Machine.place_toNat _ 0 (by decide)
  have join2 := Machine.or_toNat_of_multiple (b := place (Reg.field s1) 8) h2 (by omega)
  have join3 := Machine.or_toNat_of_multiple (l := 8) (x := s2.val * 2 ^ 4 + s1.val)
    (b := place (Reg.field d) 4) (join2.trans (by omega)) (by omega)
  have join4 := Machine.or_toNat_of_multiple (l := 4) (x := s2.val * 2 ^ 8 + s1.val * 2 ^ 4 + d.val)
    (b := place op 0) (join3.trans (by omega)) (by omega)
  rw [encodeR, join4, join3, join2, h2, h1, hd, hop, pow_zero, mul_one]

namespace Machine

/-- The difference modulo 2^32 over the integers, a borrow included (R78). -/
theorem toNat_sub_emod (a b : Word) : ((a - b).toNat : Int) = (a.toNat - b.toNat : Int) % 2 ^ 32 := by
  rw [BitVec.toNat_sub]
  omega

/-! The state an instruction that sets the flags leaves: one register write, then the flag update (R75). -/

/-- The destination holds the result, whatever the flags became. -/
theorem State.readReg_writeReg_updateFlags (s : State) (d : Reg) (v : Word) (f : Flags) :
    ((s.writeReg d v).updateFlags f).readReg d = v := by
  rw [State.readReg_updateFlags, State.readReg_writeReg_same]

/-- With FLAG_MODE `none` the flags are as they were. -/
theorem State.writeReg_updateFlags_flags_of_none {s : State} (h : s.cfg.flagMode = .none) (d : Reg) (v : Word)
    (f : Flags) : ((s.writeReg d v).updateFlags f).flags = s.flags := by
  rw [State.updateFlags_flags, if_neg (by simp [h]), State.writeReg_flags]

/-- With FLAG_MODE `arith` all four flags are the new ones. -/
theorem State.writeReg_updateFlags_flags_of_arith {s : State} (h : s.cfg.flagMode = .arith) (d : Reg) (v : Word)
    (f : Flags) : ((s.writeReg d v).updateFlags f).flags = f := by
  rw [State.updateFlags_flags, State.writeReg_cfg, if_pos h]

/-- Settles O28: one register write of a + b, and the flag update with the result that x[d] then holds. -/
theorem addWritesTheWrappedSum : Obligations.AddWritesTheWrappedSum := by
  refine fun d s1 s2 s => ⟨encodeR_toNat s2 s1 d 0, _, rfl, ?sum,
    fun hmode => State.writeReg_updateFlags_flags_of_none hmode .., fun hmode => ?flags, keepsAllBut_updateFlags ..⟩
  case sum => rw [State.readReg_writeReg_updateFlags, BitVec.toNat_add]
  case flags => rw [State.readReg_writeReg_updateFlags, State.writeReg_updateFlags_flags_of_arith hmode]

/-- Settles O29: one register write of a − b, and the flag update with the result that x[d] then holds. -/
theorem subWritesTheWrappedDifference : Obligations.SubWritesTheWrappedDifference := by
  refine fun d s1 s2 s => ⟨encodeR_toNat s2 s1 d 1, _, rfl, ?difference,
    fun hmode => State.writeReg_updateFlags_flags_of_none hmode .., fun hmode => ?flags, keepsAllBut_updateFlags ..⟩
  case difference => rw [State.readReg_writeReg_updateFlags, toNat_sub_emod]
  case flags => rw [State.readReg_writeReg_updateFlags, State.writeReg_updateFlags_flags_of_arith hmode]

/-- Settles O30: one register write of the bitwise and. -/
theorem andWritesTheBitwiseAnd : Obligations.AndWritesTheBitwiseAnd := fun d s1 s2 s =>
  ⟨encodeR_toNat s2 s1 d 2, _, rfl, fun i => by rw [State.readReg_writeReg_same, BitVec.getLsbD_and],
    State.writeReg_flags .., keepsAllBut_writeReg ..⟩

/-- Settles O31: one register write of the bitwise or. -/
theorem orWritesTheBitwiseOr : Obligations.OrWritesTheBitwiseOr := fun d s1 s2 s =>
  ⟨encodeR_toNat s2 s1 d 3, _, rfl, fun i => by rw [State.readReg_writeReg_same, BitVec.getLsbD_or],
    State.writeReg_flags .., keepsAllBut_writeReg ..⟩

/-- Settles O32: one register write of the bitwise exclusive or. -/
theorem xorWritesTheBitwiseExclusiveOr : Obligations.XorWritesTheBitwiseExclusiveOr := fun d s1 s2 s =>
  ⟨encodeR_toNat s2 s1 d 4, _, rfl, fun i => by rw [State.readReg_writeReg_same, BitVec.getLsbD_xor],
    State.writeReg_flags .., keepsAllBut_writeReg ..⟩

end Machine

end Sys2Proof

/-! The condition evaluator and the conditional operations (spec/43_conditional.md R101, R104, R110). -/

namespace Sys2Proof

/-- The word of format C as a number: the condition's code stands where format R has its second operand (R53). -/
theorem encodeC_toNat (c : Cond) (s1 d : Reg) (op : BitVec 4) :
    (encodeC c s1 d op).toNat = c.code.toNat * 2 ^ 12 + s1.val * 2 ^ 8 + d.val * 2 ^ 4 + op.toNat :=
  encodeR_toNat c.code.toFin s1 d op

namespace Machine

/-! The condition evaluator. -/

/-- A condition that says something of the flags is answered with no change of the state. -/
theorem condEval_of_test {c : Cond} {s : State} {b : Bool} (h : condTest c s.flags = some b) :
    condEval c s = (b, s) := by
  simp only [condEval, h]

/-- The invalid codes are those that say nothing of the flags. -/
theorem condTest_eq_none_iff (c : Cond) (f : Flags) : condTest c f = none ↔ InvalidCode c := by
  cases c <;> simp [condTest, InvalidCode]

/-- An invalid code is answered false and sets `fault`. -/
theorem condEval_of_invalid {c : Cond} (h : InvalidCode c) (s : State) :
    condEval c s = (false, raiseInvalidCondition s) := by
  simp only [condEval, (condTest_eq_none_iff c s.flags).2 h]

/-- The numbers of the invalid codes. -/
theorem invalidCode_ofCode {code : BitVec 4} (h : code = 10 ∨ code = 11 ∨ code = 14 ∨ code = 15) :
    InvalidCode (Cond.ofCode code) := by
  obtain rfl | rfl | rfl | rfl := h
  · exact .inl rfl
  · exact .inr (.inl rfl)
  · exact .inr (.inr (.inl rfl))
  · exact .inr (.inr (.inr rfl))

/-- Settles O24: twelve codes say what the table says of the flags, the four others say nothing. -/
theorem conditionCodesAnswerTheTable : Obligations.ConditionCodesAnswerTheTable := fun s =>
  ⟨condEval_of_test rfl, condEval_of_test rfl, condEval_of_test rfl, condEval_of_test rfl, condEval_of_test rfl,
    condEval_of_test rfl, condEval_of_test rfl, condEval_of_test rfl, condEval_of_test rfl, condEval_of_test rfl,
    condEval_of_test rfl, condEval_of_test rfl, fun _ hcode => condEval_of_invalid (invalidCode_ofCode hcode) s⟩

/-! The conditional update, one equation per answer of the evaluator. -/

/-- With a condition that holds it is one register write. -/
theorem conditionally_of_holds (f : Word → Word → Word) {c : Cond} (d s1 : Reg) {s : State}
    (h : (condEval c s).1 = true) :
    conditionally f c d s1 s = s.writeReg d (f (s.readReg d) (s.readReg s1)) := by
  obtain ⟨_, hfalse, _⟩ | ⟨_, hfalse, _⟩ | ⟨_, _, hwrite⟩ := conditionally_cases f c d s1 s
  · simp [h] at hfalse
  · simp [h] at hfalse
  · exact hwrite

/-- With a valid condition that does not hold nothing changes. -/
theorem conditionally_of_fails (f : Word → Word → Word) {c : Cond} (d s1 : Reg) {s : State}
    (h : (condEval c s).1 = false) (hvalid : ¬ InvalidCode c) : conditionally f c d s1 s = s := by
  obtain ⟨hinvalid, _⟩ | ⟨_, _, hkeep⟩ | ⟨_, htrue, _⟩ := conditionally_cases f c d s1 s
  · exact absurd hinvalid hvalid
  · exact hkeep
  · simp [h] at htrue

/-- With an invalid condition only `fault` is set (R110). -/
theorem conditionally_of_invalid (f : Word → Word → Word) {c : Cond} (d s1 : Reg) (s : State)
    (h : InvalidCode c) : conditionally f c d s1 s = raiseInvalidCondition s := by
  obtain ⟨_, _, hraise⟩ | ⟨hvalid, _⟩ | ⟨hvalid, _⟩ := conditionally_cases f c d s1 s
  · exact hraise
  · exact absurd h hvalid
  · exact absurd h hvalid

/-- Settles O52: CADD is the conditional update by the sum, so each answer of the evaluator gives its clause. -/
theorem caddAddsWhenTheConditionHolds : Obligations.CaddAddsWhenTheConditionHolds := fun d s1 c s =>
  ⟨encodeC_toNat c s1 d 8,
    fun hholds => ⟨_, congrArg Host.Outcome.next (conditionally_of_holds (· + ·) d s1 hholds),
      State.readReg_writeReg_same .., State.writeReg_flags .., keepsAllBut_writeReg ..⟩,
    fun hfails hvalid => congrArg Host.Outcome.next (conditionally_of_fails (· + ·) d s1 hfails hvalid),
    fun hinvalid => congrArg Host.Outcome.next (conditionally_of_invalid (· + ·) d s1 s hinvalid)⟩

/-! A step at a conditional operation with an invalid code (R110, R124). -/

/-- Each of ops 8 to 12 with an invalid code only sets `fault`: all five are the conditional update. -/
theorem exec_of_invalidCode {i : Instr} {c : Cond} (hi : IsConditional i c) (hc : InvalidCode c) (s : State) :
    exec i s = .next (raiseInvalidCondition s) := by
  have hraise (f : Word → Word → Word) (d s1 : Reg) : Host.Outcome.next (conditionally f c d s1 s) =
      (.next (raiseInvalidCondition s) : Host.Outcome State Fault Refusal) :=
    congrArg _ (conditionally_of_invalid f d s1 s hc)
  obtain ⟨d, s1, rfl | rfl | rfl | rfl | rfl⟩ := hi
  · exact hraise (· + ·) d s1
  · exact hraise (· - ·) d s1
  · exact hraise (· &&& ·) d s1
  · exact hraise (· ||| ·) d s1
  · exact hraise (· ^^^ ·) d s1

/-- A ready state that fetches a word executes its instruction after the fetch advance (R61). -/
theorem step_of_fetch {s u : State} {w : HalfWord} (h : s.Ready) (hfetch : fetch s = .ok (w, u)) :
    step s = endOutcome (exec (decodeWord w) (advance u)) := by
  rw [step_of_ready h, hfetch]

/-- A fetch sets no refusal mark. -/
theorem fetch_refused {s u : State} {w : HalfWord} (hfetch : fetch s = .ok (w, u)) : u.refused = s.refused := by
  rw [fetch_state hfetch]

/-- With `fault` set and no refusal the end of a step moves LOOP to FAULTED (R124). -/
theorem endStep_of_fault {s : State} (hrefused : s.refused = false) (hfault : s.fault = true) :
    endStep s = { s with loop := .faulted } := by
  simp [endStep, hrefused, hfault]

/-- Settles O22: the step executes the update that only sets `fault`, and its end then moves LOOP. -/
theorem invalidConditionSuppressesTheEffect : Obligations.InvalidConditionSuppressesTheEffect := by
  intro s u w c hready hfetch hcond hinvalid
  have hrefused : u.refused = false := (fetch_refused hfetch).trans hready.notRefused
  calc step s
    _ = endOutcome (exec (decodeWord w) (advance u)) := step_of_fetch hready hfetch
    _ = .next (endStep (raiseInvalidCondition (advance u))) := by
      rw [exec_of_invalidCode hcond hinvalid]; rfl
    _ = .next { advance u with fault := true, loop := .faulted } :=
      congrArg Host.Outcome.next (endStep_of_fault hrefused rfl)

end Machine

end Sys2Proof

/-! The reserved opcode (spec/45_reserved.md R118). -/

namespace Sys2Proof

/-- The word of format X as a number: the operand stands above the opcode nibble (R53, R118). -/
theorem encodeX_toNat (imm12 : BitVec 12) : (encodeX imm12).toNat = imm12.toNat * 2 ^ 4 + 0xF := by
  have himm : (place imm12 4).toNat = imm12.toNat * 2 ^ 4 := Machine.place_toNat _ 4 (by decide)
  have hop : (place 15#4 0).toNat = 0xF := by decide
  rw [encodeX, Machine.or_toNat_of_multiple himm (by omega), himm, hop]

namespace Machine

/-- With neither fault flag set the end of a step changes nothing (R124). -/
theorem endStep_of_noFault {s : State} (hfault : s.fault = false) (hbounds : s.boundsFault = false) :
    endStep s = s := by
  simp [endStep, hfault, hbounds]

/-- RSV leaves the state it executes in as it is (R118). -/
theorem exec_rsv (imm12 : BitVec 12) (s : State) : exec (.rsv imm12) s = .next s := rfl

/-- A step at RSV is the fetch, which may take draws, and the fetch advance. -/
theorem step_of_rsv {s u : State} {w : HalfWord} {imm12 : BitVec 12} (h : s.Ready) (hfault : s.fault = false)
    (hbounds : s.boundsFault = false) (hfetch : fetch s = .ok (w, u)) (hw : decodeWord w = .rsv imm12) :
    step s = .next { advance s with draws := u.draws } :=
  have hu : advance u = { advance s with draws := u.draws } := congrArg advance (fetch_state hfetch)
  calc step s
    _ = endOutcome (exec (decodeWord w) (advance u)) := step_of_fetch h hfetch
    _ = .next (endStep { advance s with draws := u.draws }) := by rw [hw, exec_rsv, hu]; rfl
    _ = .next { advance s with draws := u.draws } := congrArg Host.Outcome.next (endStep_of_noFault hfault hbounds)

/-- Settles O57: RSV leaves the state it executes in, so a step at it is the fetch and the fetch advance. -/
theorem reservedOpcodeDoesNothing : Obligations.ReservedOpcodeDoesNothing := by
  refine fun imm12 s => ⟨encodeX_toNat imm12, exec_rsv imm12 s, fun w u hready hfault hbounds hfetch hw => ?_⟩
  refine ⟨_, step_of_rsv hready hfault hbounds hfetch hw, readReg_advance s 0, rfl, rfl, hready.running, ?regs,
    fun _ => rfl, fun _ _ => rfl⟩
  case regs =>
    exact fun r hr => (readReg_advance s r).trans (if_neg (List.ne_of_not_mem_cons hr))

end Machine

end Sys2Proof

/-! Faults and the end of a step (spec/60_exceptions.md R121, R124, R125). -/

namespace Sys2Proof.Machine

/-! What an instruction does to the control state: the fault flags, LOOP and the refusal mark. -/

/-- A frame over all but some registers and the flags includes the control state. -/
theorem KeepsAllBut.keepsControl {rs : List Reg} {s t : State} (h : KeepsAllBut rs s t) : KeepsControl s t := by
  obtain ⟨_, _, hcontrol, _⟩ := h
  exact hcontrol

/-- What every other instruction than a conditional operation with an invalid code does to the control state: it raises
OutOfBounds, is refused, or keeps it all.  In each case `fault` stays (`LeavesFault.fault_eq`). -/
def LeavesFault (s t : State) : Prop :=
  (∃ bad, t = raiseOutOfBounds bad s) ∨ (∃ d, t = refuseShift d s) ∨ KeepsControl s t

/-- A frame over the control state leaves `fault`. -/
theorem KeepsControl.leavesFault {s t : State} (h : KeepsControl s t) : LeavesFault s t := .inr (.inr h)

/-- A register write leaves `fault`. -/
theorem leavesFault_writeReg (s : State) (d : Reg) (v : Word) : LeavesFault s (s.writeReg d v) :=
  (keepsAllBut_writeReg s d v).keepsControl.leavesFault

/-- A register write with a flag update leaves `fault`. -/
theorem leavesFault_updateFlags (s : State) (d : Reg) (v : Word) (f : Flags) :
    LeavesFault s ((s.writeReg d v).updateFlags f) :=
  (keepsAllBut_updateFlags s d v f).keepsControl.leavesFault

/-- A shift is refused or writes a register. -/
theorem leavesFault_shiftInPlace (d : Reg) (amount : Nat) (sel : BitVec 2) (s : State) :
    LeavesFault s (shiftInPlace d amount sel s) := by
  obtain ⟨_, hrefuse⟩ | ⟨kind, _, hwrite⟩ := shiftInPlace_cases d amount sel s
  · exact .inr (.inl ⟨d, hrefuse⟩)
  · exact hwrite ▸ leavesFault_writeReg s d _

/-- A conditional update with a valid code does nothing or writes a register. -/
theorem leavesFault_conditionally (f : Word → Word → Word) {c : Cond} (d s1 : Reg) (s : State) (h : ¬ InvalidCode c) :
    LeavesFault s (conditionally f c d s1 s) := by
  cases hholds : (condEval c s).1 with
  | true => exact conditionally_of_holds f d s1 hholds ▸ leavesFault_writeReg s d _
  | false =>
    have hkeep : KeepsControl s s := ⟨rfl, rfl, rfl, rfl, rfl, rfl, rfl⟩
    exact (conditionally_of_fails f d s1 hholds h).symm ▸ hkeep.leavesFault

/-- A load raises OutOfBounds or keeps the control state. -/
theorem execLdn_leavesFault (d s1 : Reg) (n : Nat) (k : Bool) (s : State) :
    ∃ t, execLdn d s1 n k s = .next t ∧ LeavesFault s t := by
  obtain ⟨bad, _, hraise⟩ | ⟨_, hread⟩ := execLdn_cases d s1 n k s
  · exact ⟨_, hraise, .inl ⟨bad, rfl⟩⟩
  · exact ⟨_, hread, KeepsControl.leavesFault (by simp [KeepsControl])⟩

/-- A store raises OutOfBounds or keeps the control state. -/
theorem execStn_leavesFault (d s1 : Reg) (n : Nat) (k : Bool) (s : State) :
    ∃ t, execStn d s1 n k s = .next t ∧ LeavesFault s t := by
  obtain ⟨bad, _, hraise⟩ | ⟨_, hwrite⟩ := execStn_cases d s1 n k s
  · exact ⟨_, hraise, .inl ⟨bad, rfl⟩⟩
  · exact ⟨_, hwrite, KeepsControl.leavesFault (by simp [KeepsControl])⟩

/-- Every instruction that is no conditional operation with an invalid code completes and leaves `fault`. -/
theorem exec_of_noInvalidCode (i : Instr) (s : State) (h : ¬ ∃ c, IsConditional i c ∧ InvalidCode c) :
    ∃ t, exec i s = .next t ∧ LeavesFault s t := by
  have hvalid {c : Cond} (hi : IsConditional i c) : ¬ InvalidCode c := fun hc => h ⟨c, hi, hc⟩
  cases i with
  | add => exact ⟨_, rfl, leavesFault_updateFlags ..⟩
  | sub => exact ⟨_, rfl, leavesFault_updateFlags ..⟩
  | and => exact ⟨_, rfl, leavesFault_writeReg ..⟩
  | or => exact ⟨_, rfl, leavesFault_writeReg ..⟩
  | xor => exact ⟨_, rfl, leavesFault_writeReg ..⟩
  | shifti => exact ⟨_, rfl, leavesFault_shiftInPlace ..⟩
  | shiftr => exact ⟨_, rfl, leavesFault_shiftInPlace ..⟩
  | ldn => exact execLdn_leavesFault ..
  | stn => exact execStn_leavesFault ..
  | cadd d s1 c => exact ⟨_, rfl, leavesFault_conditionally _ d s1 s (hvalid ⟨d, s1, by simp⟩)⟩
  | csub d s1 c => exact ⟨_, rfl, leavesFault_conditionally _ d s1 s (hvalid ⟨d, s1, by simp⟩)⟩
  | cand d s1 c => exact ⟨_, rfl, leavesFault_conditionally _ d s1 s (hvalid ⟨d, s1, by simp⟩)⟩
  | cor d s1 c => exact ⟨_, rfl, leavesFault_conditionally _ d s1 s (hvalid ⟨d, s1, by simp⟩)⟩
  | cxor d s1 c => exact ⟨_, rfl, leavesFault_conditionally _ d s1 s (hvalid ⟨d, s1, by simp⟩)⟩
  | adds => exact ⟨_, rfl, leavesFault_updateFlags ..⟩
  | subs => exact ⟨_, rfl, leavesFault_updateFlags ..⟩
  | rsv => exact ⟨s, rfl, KeepsControl.leavesFault ⟨rfl, rfl, rfl, rfl, rfl, rfl, rfl⟩⟩

/-- All that an instruction can do to the control state: InvalidCondition by an invalid code, or it leaves `fault`. -/
theorem exec_control_cases (i : Instr) (s : State) : ∃ t, exec i s = .next t ∧
    (((∃ c, IsConditional i c ∧ InvalidCode c) ∧ t = raiseInvalidCondition s) ∨
      ((¬ ∃ c, IsConditional i c ∧ InvalidCode c) ∧ LeavesFault s t)) := by
  by_cases h : ∃ c, IsConditional i c ∧ InvalidCode c
  · obtain ⟨c, hi, hc⟩ := h
    exact ⟨_, exec_of_invalidCode hi hc s, .inl ⟨⟨c, hi, hc⟩, rfl⟩⟩
  · obtain ⟨t, hexec, hleaves⟩ := exec_of_noInvalidCode i s h
    exact ⟨t, hexec, .inr ⟨h, hleaves⟩⟩

/-- The same of a next state that is already named. -/
theorem control_cases_of_exec {i : Instr} {s t : State} (h : exec i s = .next t) :
    ((∃ c, IsConditional i c ∧ InvalidCode c) ∧ t = raiseInvalidCondition s) ∨
      ((¬ ∃ c, IsConditional i c ∧ InvalidCode c) ∧ LeavesFault s t) := by
  obtain ⟨t', hexec, hcases⟩ := exec_control_cases i s
  obtain rfl : t' = t := Host.Outcome.next.inj (hexec.symm.trans h)
  exact hcases

/-- In each of the three cases `fault` is as before. -/
theorem LeavesFault.fault_eq {s t : State} (h : LeavesFault s t) : t.fault = s.fault := by
  obtain ⟨_, rfl⟩ | ⟨_, rfl⟩ | ⟨_, hfault, _⟩ := h
  · rfl
  · rfl
  · exact hfault

/-- Settles O19: an invalid code sets `fault`, and every other instruction leaves it. -/
theorem onlyInvalidConditionsSetFault : Obligations.OnlyInvalidConditionsSetFault := by
  intro i s t hexec
  obtain ⟨hinvalid, rfl⟩ | ⟨hvalid, hleaves⟩ := control_cases_of_exec hexec
  · exact iff_of_true rfl (.inr hinvalid)
  · rw [hleaves.fault_eq, or_iff_left hvalid]

/-! LOOP at the end of a step (R124). -/

/-- What the end of a step meets: LOOP still in RUNNING, and no refusal mark beside a fault flag (R61, R128). -/
structure State.Executed (s : State) : Prop where
  running : s.loop = .running
  notRefused_of_fault : s.fault = true ∨ s.boundsFault = true → s.refused = false

/-- OutOfBounds sets no refusal mark. -/
theorem executed_raiseOutOfBounds {s : State} (hready : s.Ready) (bad : Word) : (raiseOutOfBounds bad s).Executed :=
  ⟨hready.running, fun _ => hready.notRefused⟩

/-- The refusal mark is set by an instruction that sets no fault flag. -/
theorem executed_of_exec {i : Instr} {s t : State} (hready : s.Ready) (hfault : s.fault = false)
    (hbounds : s.boundsFault = false) (hexec : exec i s = .next t) : t.Executed := by
  obtain ⟨_, rfl⟩ | ⟨_, ⟨bad, rfl⟩ | ⟨d, rfl⟩ | hkeep⟩ := control_cases_of_exec hexec
  · exact ⟨hready.running, fun _ => hready.notRefused⟩
  · exact executed_raiseOutOfBounds hready bad
  · exact ⟨hready.running, by simp [hfault, hbounds]⟩
  · obtain ⟨_, _, _, _, hloop, _, hrefused⟩ := hkeep
    exact ⟨hloop.trans hready.running, fun _ => hrefused.trans hready.notRefused⟩

/-- The end of a step moves LOOP to FAULTED exactly when a fault flag is set. -/
theorem State.Executed.endStep_faulted_iff {s : State} (h : s.Executed) :
    (endStep s).loop = .faulted ↔ ((endStep s).fault = true ∨ (endStep s).boundsFault = true) := by
  rw [endStep_fault, endStep_boundsFault, endStep_loop]
  by_cases hfault : s.fault = true ∨ s.boundsFault = true
  · rw [if_pos ⟨h.notRefused_of_fault hfault, hfault⟩]
    exact iff_of_true rfl hfault
  · rw [if_neg fun hend => hfault hend.2, h.running]
    exact iff_of_false LoopState.noConfusion hfault

/-- Under the invariant RUNNING has neither fault flag set. -/
theorem State.Inv.noFault_of_running {s : State} (h : s.Inv) (hrunning : s.loop = .running) :
    s.fault = false ∧ s.boundsFault = false := by
  simpa [hrunning] using h.faulted_iff

/-- A step from a state with no fault flag set ends an executed state. -/
theorem exists_executed_of_step {s t : State} (hfault : s.fault = false) (hbounds : s.boundsFault = false)
    (hstep : step s = .next t) : ∃ v, v.Executed ∧ t = endStep v := by
  obtain ⟨hready, ⟨bad, _, rfl⟩ | ⟨_, w, u, v, _, hu, hexec, rfl⟩⟩ := step_cases hstep
  · exact ⟨_, executed_raiseOutOfBounds hready bad, rfl⟩
  · have hadvanced : (advance u).Ready := by
      rw [hu]
      exact ⟨hready.running, hready.notRefused, hready.legal⟩
    have hfault' : (advance u).fault = false := by rwa [hu]
    have hbounds' : (advance u).boundsFault = false := by rwa [hu]
    exact ⟨v, executed_of_exec hadvanced hfault' hbounds' hexec, rfl⟩

/-- There is no step in FAULTED (R125). -/
theorem step_of_faulted {s : State} (h : s.loop = .faulted) : step s = .fault .loopFaulted := if_pos h

/-- Settles O17: under the invariant the step begins with no fault, and what its end meets is no refusal beside a
fault, so LOOP follows the fault flags. -/
theorem loopMovesToFaultedExactlyOnAFault : Obligations.LoopMovesToFaultedExactlyOnAFault := by
  intro s t hinv hstep
  have hrunning := (ready_of_step hstep).running
  obtain ⟨hfault, hbounds⟩ := hinv.noFault_of_running hrunning
  obtain ⟨v, hexecuted, rfl⟩ := exists_executed_of_step hfault hbounds hstep
  exact ⟨hrunning, hfault, hbounds, hexecuted.endStep_faulted_iff, step_of_faulted⟩

/-! The answer in FAULTED (R125). -/

/-- A ready state takes a step: every instruction completes. -/
theorem exists_step_of_ready {s : State} (h : s.Ready) : ∃ t, step s = .next t := by
  obtain ⟨bad, _, hfetch⟩ | ⟨_, hfetch⟩ := fetch_cases s
  · exact ⟨_, by rw [step_of_ready h, hfetch]⟩
  · obtain ⟨t, hexec, _⟩ := exec_control_cases (decodeWord _) (advance _)
    exact ⟨endStep t, by rw [step_of_fetch h hfetch, hexec]; rfl⟩

/-- A state that is neither FAULTED nor ready is refused. -/
theorem exists_refused_of_not_ready {s : State} (hloop : s.loop ≠ .faulted) (h : ¬ s.Ready) :
    ∃ r, step s = .refused r := by
  rw [step, if_neg hloop]
  by_cases hrefused : s.refused = true
  · exact ⟨_, if_pos hrefused⟩
  · have hrunning : s.loop = .running := by
      cases hs : s.loop with
      | running => rfl
      | faulted => exact absurd hs hloop
    have hillegal : ¬ s.cfg.Legal := fun hlegal => h ⟨hrunning, eq_false_of_ne_true hrefused, hlegal⟩
    exact ⟨_, (if_neg hrefused).trans (if_pos hillegal)⟩

/-- Only FAULTED is answered by a fault. -/
theorem faulted_of_step_fault {s : State} {f : Fault} (h : step s = .fault f) : s.loop = .faulted := by
  by_contra hloop
  by_cases hready : s.Ready
  · obtain ⟨t, hnext⟩ := exists_step_of_ready hready
    rw [hnext] at h
    cases h
  · obtain ⟨r, hrefused⟩ := exists_refused_of_not_ready hloop hready
    rw [hrefused] at h
    cases h

/-- Settles O15: FAULTED and no other state is answered by the fault, and the signal is that of its definition. -/
theorem faultedTakesNoStep : Obligations.FaultedTakesNoStep := fun _ =>
  ⟨⟨step_of_faulted, faulted_of_step_fault⟩, decide_eq_true_iff⟩

end Sys2Proof.Machine

/-! Everything an instruction can do, and the invariant (spec/10_state.md, spec/60_exceptions.md R124 to R128). -/

namespace Sys2Proof.Machine

/-- All that executing an instruction can do to the state: the one inversion that the invariant and the frames rest on. -/
inductive Effect (i : Instr) (s : State) : State → Prop where
  /-- RSV, or a condition that does not hold. -/
  | nothing (hlength : i.length = 2) : Effect i s s
  /-- The result goes to the destination. -/
  | write (d : Reg) (v : Word) (hdest : destination i = some d) (hlength : i.length = 2) : Effect i s (s.writeReg d v)
  /-- The result goes to the destination, and the flags follow FLAG_MODE: ops 0, 1, 13 and 14 (R75). -/
  | writeWithFlags (d : Reg) (v : Word) (f : Flags) (hdest : destination i = some d) (hlength : i.length = 2)
      (hop : i.opcode = 0 ∨ i.opcode = 1 ∨ i.opcode = 13 ∨ i.opcode = 14) :
      Effect i s ((s.writeReg d v).updateFlags f)
  /-- InvalidCondition (R110). -/
  | invalidCondition (hlength : i.length = 2) : Effect i s (raiseInvalidCondition s)
  /-- A shift of an unknown kind (R86). -/
  | refusal (d : Reg) (hdest : destination i = some d) (hlength : i.length = 2) : Effect i s (refuseShift d s)
  /-- A load in bounds (R93). -/
  | load (d s1 : Reg) (n : Nat) (k : Bool) (hi : i = .ldn d s1 n k) :
      Effect i s ((readBytes n (loadBase d s1 k s) (loadPrepared d k s)).2.writeReg d
        (readBytes n (loadBase d s1 k s) (loadPrepared d k s)).1)
  /-- A store in bounds (R95). -/
  | store (d s1 : Reg) (n : Nat) (k : Bool) (hi : i = .stn d s1 n k) :
      Effect i s (writeBytes n (storeBase d k s) (storeValue s1 k s) (skip k s))
  /-- A load with a byte out of bounds (R99). -/
  | loadOut (d s1 : Reg) (n : Nat) (k : Bool) (bad : Word) (hi : i = .ldn d s1 n k)
      (hout : FirstOut s.cfg.memSize (loadBase d s1 k s) n bad) : Effect i s (raiseOutOfBounds bad s)
  /-- A store with a byte out of bounds (R99). -/
  | storeOut (d s1 : Reg) (n : Nat) (k : Bool) (bad : Word) (hi : i = .stn d s1 n k)
      (hout : FirstOut s.cfg.memSize (storeBase d k s) n bad) : Effect i s (raiseOutOfBounds bad s)

/-- A shift is refused or writes its destination. -/
theorem effect_shiftInPlace {i : Instr} {d : Reg} (hdest : destination i = some d) (hlength : i.length = 2)
    (amount : Nat) (sel : BitVec 2) (s : State) : Effect i s (shiftInPlace d amount sel s) := by
  obtain ⟨_, hrefuse⟩ | ⟨kind, _, hwrite⟩ := shiftInPlace_cases d amount sel s
  · exact hrefuse ▸ .refusal d hdest hlength
  · exact hwrite ▸ .write d _ hdest hlength

/-- A conditional operation raises InvalidCondition, does nothing or writes its destination. -/
theorem effect_conditionally {i : Instr} {d : Reg} (hdest : destination i = some d) (hlength : i.length = 2)
    (f : Word → Word → Word) (c : Cond) (s1 : Reg) (s : State) : Effect i s (conditionally f c d s1 s) := by
  obtain ⟨_, _, hraise⟩ | ⟨_, _, hkeep⟩ | ⟨_, _, hwrite⟩ := conditionally_cases f c d s1 s
  · exact hraise ▸ .invalidCondition hlength
  · exact hkeep.symm ▸ .nothing hlength
  · exact hwrite ▸ .write d _ hdest hlength

/-- Every instruction completes, with one of these effects. -/
theorem exec_effect (i : Instr) (s : State) : ∃ t, exec i s = .next t ∧ Effect i s t := by
  cases i with
  | add d s1 s2 => exact ⟨_, rfl, .writeWithFlags d _ _ rfl rfl (by simp [Instr.opcode])⟩
  | sub d s1 s2 => exact ⟨_, rfl, .writeWithFlags d _ _ rfl rfl (by simp [Instr.opcode])⟩
  | and d s1 s2 => exact ⟨_, rfl, .write d _ rfl rfl⟩
  | or d s1 s2 => exact ⟨_, rfl, .write d _ rfl rfl⟩
  | xor d s1 s2 => exact ⟨_, rfl, .write d _ rfl rfl⟩
  | shifti d imm sel => exact ⟨_, rfl, effect_shiftInPlace rfl rfl ..⟩
  | shiftr d s1 sel => exact ⟨_, rfl, effect_shiftInPlace rfl rfl ..⟩
  | ldn d s1 n k =>
    obtain ⟨bad, hout, hraise⟩ | ⟨_, hread⟩ := execLdn_cases d s1 n k s
    · exact ⟨_, hraise, .loadOut d s1 n k bad rfl hout⟩
    · exact ⟨_, hread, .load d s1 n k rfl⟩
  | stn d s1 n k =>
    obtain ⟨bad, hout, hraise⟩ | ⟨_, hwrite⟩ := execStn_cases d s1 n k s
    · exact ⟨_, hraise, .storeOut d s1 n k bad rfl hout⟩
    · exact ⟨_, hwrite, .store d s1 n k rfl⟩
  | cadd d s1 c => exact ⟨_, rfl, effect_conditionally rfl rfl ..⟩
  | csub d s1 c => exact ⟨_, rfl, effect_conditionally rfl rfl ..⟩
  | cand d s1 c => exact ⟨_, rfl, effect_conditionally rfl rfl ..⟩
  | cor d s1 c => exact ⟨_, rfl, effect_conditionally rfl rfl ..⟩
  | cxor d s1 c => exact ⟨_, rfl, effect_conditionally rfl rfl ..⟩
  | adds d s1 s2 => exact ⟨_, rfl, .writeWithFlags d _ _ rfl rfl (by simp [Instr.opcode])⟩
  | subs d s1 s2 => exact ⟨_, rfl, .writeWithFlags d _ _ rfl rfl (by simp [Instr.opcode])⟩
  | rsv imm12 => exact ⟨s, rfl, .nothing rfl⟩

/-- The effect of a next state that is already named. -/
theorem effect_of_exec {i : Instr} {s t : State} (h : exec i s = .next t) : Effect i s t := by
  obtain ⟨t', hexec, heffect⟩ := exec_effect i s
  obtain rfl : t' = t := Host.Outcome.next.inj (hexec.symm.trans h)
  exact heffect

/-! The part of the invariant that does not speak of LOOP, which moves at the end of a step only. -/

/-- The clauses of the invariant that do not speak of LOOP. -/
structure State.Coherent (s : State) : Prop where
  legal : s.cfg.Legal
  canonical : s.mem.wf
  visible : s.mem.Visible
  oneFault : ¬ (s.fault = true ∧ s.boundsFault = true)
  boundsAddr_out : s.boundsFault = true → s.cfg.memSize ≤ s.boundsAddr.toNat

/-- The invariant includes it. -/
theorem State.Inv.coherent {s : State} (h : s.Inv) : s.Coherent :=
  ⟨h.legal, h.canonical, h.visible, h.oneFault, h.boundsAddr_out⟩

/-- It is a matter of the configuration, the memory and the fault fields alone. -/
theorem State.Coherent.congr {s t : State} (h : s.Coherent) (hcfg : t.cfg = s.cfg) (hmem : t.mem = s.mem)
    (hfault : t.fault = s.fault) (hbounds : t.boundsFault = s.boundsFault) (haddr : t.boundsAddr = s.boundsAddr) :
    t.Coherent :=
  ⟨hcfg ▸ h.legal, hmem ▸ h.canonical, hmem ▸ h.visible, hfault ▸ hbounds ▸ h.oneFault,
    hcfg ▸ hbounds ▸ haddr ▸ h.boundsAddr_out⟩

/-- The end of a step keeps it. -/
theorem State.Coherent.endStep {s : State} (h : s.Coherent) : (endStep s).Coherent :=
  h.congr (endStep_cfg s) (endStep_mem s) (endStep_fault s) (endStep_boundsFault s) (endStep_boundsAddr s)

/-- InvalidCondition keeps it where no bounds fault stands. -/
theorem State.Coherent.raiseInvalidCondition {s : State} (h : s.Coherent) (hbounds : s.boundsFault = false) :
    (raiseInvalidCondition s).Coherent :=
  ⟨h.legal, h.canonical, h.visible, by simp [hbounds], h.boundsAddr_out⟩

/-- OutOfBounds keeps it where no other fault stands: the address recorded is out of bounds. -/
theorem State.Coherent.raiseOutOfBounds {s : State} (h : s.Coherent) (hfault : s.fault = false) {a bad : Word} {n : Nat}
    (hout : FirstOut s.cfg.memSize a n bad) : (raiseOutOfBounds bad s).Coherent := by
  obtain ⟨_, _, _, hbad, _⟩ := hout
  exact ⟨h.legal, h.canonical, h.visible, by simp [hfault], fun _ => hbad⟩

/-- Every effect keeps it from a state with no fault flag set. -/
theorem Effect.coherent {i : Instr} {s t : State} (heffect : Effect i s t) (h : s.Coherent) (hfault : s.fault = false)
    (hbounds : s.boundsFault = false) : t.Coherent := by
  cases heffect with
  | nothing => exact h
  | write => exact h.congr rfl rfl rfl rfl rfl
  | writeWithFlags => exact h.congr (by simp) (by simp) (by simp) (by simp) (by simp)
  | invalidCondition => exact h.raiseInvalidCondition hbounds
  | refusal => exact h.congr rfl rfl rfl rfl rfl
  | load => exact h.congr (by simp) (by simp) (by simp) (by simp) (by simp)
  | store d s1 n k =>
    have hskip : (skip k s).Coherent := h.congr rfl rfl rfl rfl rfl
    exact ⟨by simpa using h.legal, writeBytes_wf hskip.canonical _ _ _, writeBytes_visible hskip.visible _ _ _,
      by simpa using h.oneFault, by simpa using h.boundsAddr_out⟩
  | loadOut _ _ _ _ _ _ hout => exact h.raiseOutOfBounds hfault hout
  | storeOut _ _ _ _ _ _ hout => exact h.raiseOutOfBounds hfault hout

/-- A step keeps it from a state with no fault flag set. -/
theorem State.Coherent.step {s t : State} (h : s.Coherent) (hfault : s.fault = false) (hbounds : s.boundsFault = false)
    (hstep : step s = .next t) : t.Coherent := by
  obtain ⟨_, ⟨bad, hout, rfl⟩ | ⟨_, w, u, v, _, hu, hexec, rfl⟩⟩ := step_cases hstep
  · exact (h.raiseOutOfBounds hfault hout).endStep
  · have hadvanced : (advance u).Coherent := by
      rw [hu]
      exact h.congr rfl rfl rfl rfl rfl
    have hfault' : (advance u).fault = false := by rwa [hu]
    have hbounds' : (advance u).boundsFault = false := by rwa [hu]
    exact ((effect_of_exec hexec).coherent hadvanced hfault' hbounds').endStep

/-- A refusal ends the step in RUNNING. -/
theorem State.Executed.running_of_refused {s : State} (h : s.Executed) (hrefused : (endStep s).refused = true) :
    (endStep s).loop = .running := by
  rw [endStep_refused] at hrefused
  rw [endStep_loop, if_neg (by simp [hrefused]), h.running]

/-- Settles O3: LOOP follows the fault flags (O17), a refusal stays in RUNNING, and the rest is kept effect by effect. -/
theorem everyStepKeepsTheInvariant : Obligations.EveryStepKeepsTheInvariant := by
  intro s t hinv hstep
  obtain ⟨_, hfault, hbounds, hloop, _⟩ := loopMovesToFaultedExactlyOnAFault s t hinv hstep
  obtain ⟨hlegal, hcanonical, hvisible, honeFault, haddr⟩ := hinv.coherent.step hfault hbounds hstep
  have hrefused : t.refused = true → t.loop = .running := by
    obtain ⟨v, hexecuted, rfl⟩ := exists_executed_of_step hfault hbounds hstep
    exact hexecuted.running_of_refused
  exact ⟨hlegal, hcanonical, hvisible, hloop, honeFault, haddr, hrefused⟩

end Sys2Proof.Machine

/-! The decoder and the encoder undo each other (spec/30_encoding.md R53, R56, R57). -/

namespace Sys2Proof

/-- Decoding undoes encoding: each field of each format gives back what the encoder put there. -/
theorem decodeWord_encode {i : Instr} (h : i.WellFormed = true) : decodeWord (encode i) = i := by
  cases i with
  | add | sub | and | or | xor | adds | subs =>
    simp [encode, decodeWord, opField_encodeR, dField_encodeR, s1Field_encodeR, s2Field_encodeR]
  | shifti =>
    simp [encode, decodeWord, opField_encodeSI, dField_encodeSI, immField_encodeSI, selField_encodeSI,
      modeField_encodeSI]
  | shiftr =>
    simp [encode, decodeWord, opField_encodeSR, dField_encodeSR, s1Field_encodeSR, selField_encodeSR,
      modeField_encodeSR]
  | ldn d s1 n k | stn d s1 n k =>
    obtain ⟨hlo, hhi⟩ : ByteCount n := of_decide_eq_true h
    simp [encode, decodeWord, opField_encodeM, dField_encodeM, s1Field_encodeM, skipField_encodeM,
      countField_encodeM _ _ _ _ _ hlo hhi]
  | cadd | csub | cand | cor | cxor =>
    simp [encode, decodeWord, opField_encodeC, dField_encodeC, s1Field_encodeC, condField_encodeC, ofCode_code]
  | rsv => simp [encode, decodeWord, opField_encodeX, rsvField_encodeX]

/-- Settles O5: the fields decode to the instruction, and the bytes of a word make the word again. -/
theorem decodeUndoesEncode : Obligations.DecodeUndoesEncode := fun i h =>
  ⟨decodeWord_encode h, fun rest => by rw [decode_bytesOfWord, decodeWord_encode h]⟩

/-- The opcode of a word from its number. -/
theorem opField_of_toNat {w : HalfWord} {n : Nat} (h : (opField w).toNat = n) : opField w = BitVec.ofNat 4 n := by
  rw [← h, BitVec.ofNat_toNat, BitVec.setWidth_eq]

/-- The word an instruction is encoded in again, by its opcode: RSV keeps all its bits, the other formats clear the
ignored ones. -/
theorem encode_decodeWord (w : HalfWord) :
    encode (decodeWord w) = if opField w = 15 then w else w &&& ~~~ignoredBits .instruction w := by
  have hall : w &&& 0xFFFF#16 = w := BitVec.and_allOnes
  unfold decodeWord
  split
  case h_6 h =>
    have hop := opField_of_toNat h
    cases hm : modeField w with
    | false => simp [hop, hm, ignoredBits, encode, encodeSI_fields w hop hm, hall]
    | true => simp [hop, hm, ignoredBits, encode, encodeSR_fields w hop hm]
  case h_7 h | h_8 h =>
    have hop := opField_of_toNat h
    simp [hop, ignoredBits, encode, encodeM_fields w hop]
  case h_9 h | h_10 h | h_11 h | h_12 h | h_13 h =>
    have hop := opField_of_toNat h
    simp [hop, ignoredBits, encode, encodeC_fields w hop, hall]
  case h_16 =>
    have hlt : (opField w).toNat < 16 := (opField w).isLt
    have h15 : opField w = 15 := opField_of_toNat (n := 15) (by simp only [imp_false] at *; omega)
    rw [if_pos h15]
    exact encodeX_fields w h15
  case h_1 h | h_2 h | h_3 h | h_4 h | h_5 h | h_14 h | h_15 h =>
    have hop := opField_of_toNat h
    simp [hop, ignoredBits, encode, encodeR_fields w hop, hall]

/-- Settles O6. -/
theorem encodeUndoesDecode : Obligations.EncodeUndoesDecode := encode_decodeWord

/-- Settles O9: each word is one computation of the decoder. -/
theorem exampleWordsDecode : Obligations.ExampleWordsDecode :=
  ⟨rfl, rfl, rfl, rfl, rfl, rfl, rfl, rfl, rfl, rfl⟩

end Sys2Proof

/-! Ignored bits (spec/30_encoding.md R56, D31). -/

namespace Sys2Proof

/-- Two words differ only in the bits set in `m`. -/
def AgreeOutside (m w w' : HalfWord) : Prop := (w ^^^ w') &&& ~~~m = 0

/-- A bit that is clear in `m` is the same in both words. -/
theorem AgreeOutside.bit {m w w' : HalfWord} (h : AgreeOutside m w w') {i : Nat} (hm : m.getLsbD i = false) :
    w.getLsbD i = w'.getLsbD i := by
  by_cases hi : i < 16
  · have hbit := congrArg (BitVec.getLsbD · i) h
    simp only [BitVec.getLsbD_and, BitVec.getLsbD_xor, BitVec.getLsbD_not, hi, hm] at hbit
    simpa using hbit
  · rw [BitVec.getLsbD_of_ge w i (by omega), BitVec.getLsbD_of_ge w' i (by omega)]

/-- A field whose bits are all clear in `m` is the same in both words. -/
theorem AgreeOutside.field {m w w' : HalfWord} (h : AgreeOutside m w w') {l n : Nat} (hm : m.extractLsb' l n = 0) :
    w.extractLsb' l n = w'.extractLsb' l n := by
  refine BitVec.eq_of_getLsbD_eq fun i hi => ?_
  have hclear : m.getLsbD (l + i) = false := by
    simpa [hi] using congrArg (BitVec.getLsbD · i) hm
  rw [BitVec.getLsbD_extractLsb', BitVec.getLsbD_extractLsb', h.bit hclear]

/-- Words that differ in no bit are equal. -/
theorem AgreeOutside.eq {w w' : HalfWord} (h : AgreeOutside 0 w w') : w = w' :=
  BitVec.eq_of_getLsbD_eq fun _ _ => h.bit (BitVec.getLsbD_zero)

/-- No bit of the opcode is ignored. -/
theorem ignoredBits_opcode (mode : ShiftSelect) (w : HalfWord) : (ignoredBits mode w).extractLsb' 0 4 = 0 := by
  unfold ignoredBits
  split
  case h_1 => cases modeField w <;> cases mode <;> decide
  all_goals decide

/-- The instructions with ignored bits are the shifts, the loads, the stores and RSV. -/
theorem ignoredBits_cases (mode : ShiftSelect) (w : HalfWord) :
    opField w = 5 ∨ opField w = 6 ∨ opField w = 7 ∨ opField w = 15 ∨ ignoredBits mode w = 0 := by
  unfold ignoredBits
  split
  case h_1 h => exact .inl (opField_of_toNat h)
  case h_2 h => exact .inr (.inl (opField_of_toNat h))
  case h_3 h => exact .inr (.inr (.inl (opField_of_toNat h)))
  case h_4 h => exact .inr (.inr (.inr (.inl (opField_of_toNat h))))
  case h_5 => exact .inr (.inr (.inr (.inr rfl)))

/-- Op 6 is a load. -/
theorem decodeWord_load {w : HalfWord} (hop : opField w = 6) :
    decodeWord w = .ldn (dField w) (s1Field w) (countField w) (skipField w) := by
  simp only [decodeWord, hop]
  rfl

/-- Op 7 is a store. -/
theorem decodeWord_store {w : HalfWord} (hop : opField w = 7) :
    decodeWord w = .stn (dField w) (s1Field w) (countField w) (skipField w) := by
  simp only [decodeWord, hop]
  rfl

/-- Op 15 is RSV. -/
theorem decodeWord_reserved {w : HalfWord} (hop : opField w = 15) : decodeWord w = .rsv (rsvField w) := by
  simp only [decodeWord, hop]
  rfl

namespace Machine

/-- The kind of a shift is all that its selector field says. -/
theorem shiftInPlace_congr {sel sel' : BitVec 2} {s : State} (h : shiftSelector sel s = shiftSelector sel' s) (d : Reg)
    (amount : Nat) : shiftInPlace d amount sel s = shiftInPlace d amount sel' s := by
  simp only [shiftInPlace, h]

/-- Words of a shift that differ in ignored bits have the same kind: in `register` mode only word[14] is read (R84). -/
theorem shiftSelector_of_agree {s : State} {w w' : HalfWord} (hop : opField w = 5)
    (h : AgreeOutside (ignoredBits s.cfg.shiftSelect w) w w') :
    shiftSelector (selField w) s = shiftSelector (selField w') s := by
  simp only [ignoredBits, hop] at h
  unfold shiftSelector
  cases hmode : s.cfg.shiftSelect with
  | register =>
    have hbit : w.getLsbD 14 = w'.getLsbD 14 := h.bit (by cases modeField w <;> rw [hmode] <;> decide)
    have hsel : (selField w).getLsbD 1 = (selField w').getLsbD 1 := by simpa [selField] using hbit
    simp only [hsel]
  | instruction =>
    have hsel : selField w = selField w' := h.field (by cases modeField w <;> rw [hmode] <;> decide)
    simp only [hsel]

/-- Words of a shift that differ in ignored bits execute alike. -/
theorem exec_shift_of_agree {s : State} {w w' : HalfWord} (hop : opField w = 5) (hop' : opField w' = 5)
    (h : AgreeOutside (ignoredBits s.cfg.shiftSelect w) w w') : exec (decodeWord w) s = exec (decodeWord w') s := by
  have hselector := shiftSelector_of_agree hop h
  simp only [ignoredBits, hop] at h
  have hmode : modeField w = modeField w' :=
    h.bit (by cases modeField w <;> cases s.cfg.shiftSelect <;> decide)
  have hd : dField w = dField w' :=
    congrArg BitVec.toFin (h.field (by cases modeField w <;> cases s.cfg.shiftSelect <;> decide))
  rw [decodeWord_shift hop, decodeWord_shift hop', ← hmode, ← hd]
  cases hm : modeField w with
  | false =>
    rw [hm] at h
    have himm : immField w = immField w' := h.field (by cases s.cfg.shiftSelect <;> decide)
    exact congrArg Host.Outcome.next (himm ▸ shiftInPlace_congr hselector ..)
  | true =>
    rw [hm] at h
    have hs1 : s1Field w = s1Field w' := congrArg BitVec.toFin (h.field (by cases s.cfg.shiftSelect <;> decide))
    exact congrArg Host.Outcome.next (hs1 ▸ shiftInPlace_congr hselector ..)

end Machine

/-- Words that differ only in bit 12 have the fields of format M in common. -/
theorem fieldsM_of_agree {w w' : HalfWord} (h : AgreeOutside 0x1000 w w') : dField w = dField w' ∧
    s1Field w = s1Field w' ∧ countField w = countField w' ∧ skipField w = skipField w' :=
  ⟨congrArg BitVec.toFin (h.field (by decide)), congrArg BitVec.toFin (h.field (by decide)),
    congrArg (BitVec.toNat · + 1) (h.field (l := 14) (n := 2) (by decide)), h.bit (by decide)⟩

/-- Settles O8: the opcode is no ignored bit, and for each opcode with ignored bits the fields that are read agree. -/
theorem ignoredBitsChangeNothing : Obligations.IgnoredBitsChangeNothing := by
  intro s w w' hdiff
  have h : AgreeOutside (ignoredBits s.cfg.shiftSelect w) w w' := hdiff
  have hop : opField w = opField w' := h.field (ignoredBits_opcode _ _)
  obtain h5 | h6 | h7 | h15 | hnone := ignoredBits_cases s.cfg.shiftSelect w
  · exact Machine.exec_shift_of_agree h5 (hop ▸ h5) h
  · simp only [ignoredBits, h6] at h
    obtain ⟨hd, hs1, hcount, hskip⟩ := fieldsM_of_agree h
    rw [decodeWord_load h6, decodeWord_load (hop ▸ h6), hd, hs1, hcount, hskip]
  · simp only [ignoredBits, h7] at h
    obtain ⟨hd, hs1, hcount, hskip⟩ := fieldsM_of_agree h
    rw [decodeWord_store h7, decodeWord_store (hop ▸ h7), hd, hs1, hcount, hskip]
  · rw [decodeWord_reserved h15, decodeWord_reserved (hop ▸ h15), Machine.exec_rsv, Machine.exec_rsv]
  · rw [hnone] at h
    rw [h.eq]

end Sys2Proof

/-! What the effects of the instructions say of the PC, the counters, the fault fields, the flags and memory. -/

namespace Sys2Proof

/-- Every instruction but a load and a store takes two bytes. -/
theorem Instr.length_of_opcode {i : Instr} (h6 : i.opcode ≠ 6) (h7 : i.opcode ≠ 7) : i.length = 2 := by
  cases i with
  | ldn => exact absurd rfl h6
  | stn => exact absurd rfl h7
  | _ => rfl

/-- The length is told by the first word (R64). -/
theorem length_decodeWord (w : HalfWord) : (decodeWord w).length = streamLength w := by
  unfold streamLength
  by_cases h6 : opField w = 6
  · rw [decodeWord_load h6]
    simp [h6, Instr.length]
  · by_cases h7 : opField w = 7
    · rw [decodeWord_store h7]
      simp [h7, Instr.length]
    · rw [Instr.length_of_opcode (opcode_decodeWord w ▸ h6) (opcode_decodeWord w ▸ h7)]
      exact (if_neg fun h => h.1.elim h6 h7).symm

namespace Machine

/-! The PC (R59, R92). -/

/-- A write of another register than x[0] leaves the PC. -/
theorem State.pc_writeReg_ne (s : State) {d : Reg} (h : d ≠ 0) (v : Word) : (s.writeReg d v).pc = s.pc :=
  State.readReg_writeReg_ne s h.symm v

/-- A load to another register than x[0] only advances the PC by the skip. -/
theorem loadPrepared_pc {d : Reg} (h : d ≠ 0) (k : Bool) (s : State) :
    (loadPrepared d k s).pc = s.pc + (if k then 2 else 0) := by
  rw [loadPrepared, skip_pc, State.pc_writeReg_ne s h]

/-- Past an instruction of two bytes stands the PC after the fetch advance. -/
theorem pc_past_two (a : Word) {n : Nat} (h : n = 2) : a = a - 2 + BitVec.ofNat 32 n := by
  rw [h]
  exact (BitVec.sub_add_cancel a 2).symm

/-- Past a load or a store stands that PC with the skip made. -/
theorem pc_past_skip (a : Word) (k : Bool) :
    a + (if k then 2 else 0) = a - 2 + BitVec.ofNat 32 (if k then 4 else 2) := by
  cases k <;> simp only [Bool.false_eq_true, if_true, if_false] <;> bv_omega

/-- An instruction that neither names x[0] as its destination nor raises OutOfBounds leaves the PC just past it. -/
theorem Effect.pc {i : Instr} {s t : State} (heffect : Effect i s t) (hdest : destination i ≠ some 0)
    (hbounds : t.boundsFault = false) : t.pc = s.pc - 2 + BitVec.ofNat 32 i.length := by
  have hne {d : Reg} (hd : destination i = some d) : d ≠ 0 := fun h0 => hdest (h0 ▸ hd)
  cases heffect with
  | nothing hlength => exact pc_past_two _ hlength
  | invalidCondition hlength => exact pc_past_two _ hlength
  | write d v hd hlength => exact (State.pc_writeReg_ne s (hne hd) v).trans (pc_past_two _ hlength)
  | writeWithFlags d v f hd hlength =>
    exact (State.readReg_updateFlags ..).trans ((State.pc_writeReg_ne s (hne hd) v).trans (pc_past_two _ hlength))
  | refusal d hd hlength => exact (State.pc_writeReg_ne s (hne hd) _).trans (pc_past_two _ hlength)
  | load d s1 n k hi =>
    subst hi
    calc _ = (readBytes n (loadBase d s1 k s) (loadPrepared d k s)).2.pc := State.pc_writeReg_ne _ (hne rfl) _
      _ = (loadPrepared d k s).pc := readReg_readBytes ..
      _ = s.pc + (if k then 2 else 0) := loadPrepared_pc (hne rfl) k s
      _ = _ := pc_past_skip _ k
  | store d s1 n k hi =>
    subst hi
    exact (readReg_writeBytes ..).trans ((skip_pc k s).trans (pc_past_skip _ k))
  | loadOut => cases hbounds
  | storeOut => cases hbounds

/-- Settles O10: the length is that of the first word, and each effect moves the PC by the skip alone. -/
theorem pcLeavesPastTheInstruction : Obligations.PcLeavesPastTheInstruction := fun w =>
  ⟨length_decodeWord w, fun _ _ hdest hexec hbounds => (effect_of_exec hexec).pc hdest hbounds⟩

/-! Completion and the counter of instructions. -/

/-- Settles O12: every instruction has an effect, and so has every step of a ready state. -/
theorem everyInstructionCompletes : Obligations.EveryInstructionCompletes :=
  ⟨fun i s => (exec_effect i s).imp fun _ h => h.1, fun _ => exists_step_of_ready⟩

/-- No instruction changes the configuration or the counter. -/
theorem Effect.cfg_retired {i : Instr} {s t : State} (heffect : Effect i s t) :
    t.cfg = s.cfg ∧ t.retired = s.retired := by
  cases heffect <;> simp

/-- Settles O18: the fetch advance counts, and neither a fetch out of bounds nor an instruction does. -/
theorem retiredCountsExecutedInstructions : Obligations.RetiredCountsExecutedInstructions := by
  intro s t hstep
  obtain ⟨_, ⟨bad, hout, rfl⟩ | ⟨hin, w, u, v, _, hu, hexec, rfl⟩⟩ := step_cases hstep
  · exact ⟨by simp, fun hin => absurd hout hin.not_firstOut, fun _ => by simp⟩
  · obtain ⟨hcfg, hretired⟩ := (effect_of_exec hexec).cfg_retired
    rw [hu] at hcfg hretired
    exact ⟨by simpa using hcfg, fun _ => by simpa using hretired, fun hnot => absurd hin hnot⟩

/-! Loads and stores by their bounds, and the bounds fault (R99, R123). -/

/-- A load with a byte out of bounds raises OutOfBounds and does nothing else. -/
theorem exec_ldn_of_firstOut {d s1 : Reg} {n : Nat} {k : Bool} {s : State} {bad : Word}
    (h : FirstOut s.cfg.memSize (loadBase d s1 k s) n bad) : exec (.ldn d s1 n k) s = .next (raiseOutOfBounds bad s) := by
  have hread : memRead (loadBase d s1 k s) n (loadPrepared d k s) = .error bad := memRead_error h
  simp only [exec, execLdn, hread]

/-- A store with a byte out of bounds raises OutOfBounds and does nothing else. -/
theorem exec_stn_of_firstOut {d s1 : Reg} {n : Nat} {k : Bool} {s : State} {bad : Word}
    (h : FirstOut s.cfg.memSize (storeBase d k s) n bad) : exec (.stn d s1 n k) s = .next (raiseOutOfBounds bad s) := by
  have hwrite : memWrite (storeBase d k s) n (storeValue s1 k s) (skip k s) = .error bad := memWrite_error h
  simp only [exec, execStn, hwrite]

/-- A load in bounds reads the bytes and writes x[d]. -/
theorem exec_ldn_of_inBounds {d s1 : Reg} {n : Nat} {k : Bool} {s : State}
    (h : InBounds s.cfg.memSize (loadBase d s1 k s) n) : exec (.ldn d s1 n k) s =
      .next ((readBytes n (loadBase d s1 k s) (loadPrepared d k s)).2.writeReg d
        (readBytes n (loadBase d s1 k s) (loadPrepared d k s)).1) := by
  have hread : memRead (loadBase d s1 k s) n (loadPrepared d k s) = .ok _ := memRead_ok h
  simp only [exec, execLdn, hread]

/-- A store in bounds makes the skip and writes the bytes. -/
theorem exec_stn_of_inBounds {d s1 : Reg} {n : Nat} {k : Bool} {s : State}
    (h : InBounds s.cfg.memSize (storeBase d k s) n) : exec (.stn d s1 n k) s =
      .next (writeBytes n (storeBase d k s) (storeValue s1 k s) (skip k s)) := by
  have hwrite : memWrite (storeBase d k s) n (storeValue s1 k s) (skip k s) = .ok _ := memWrite_ok h
  simp only [exec, execStn, hwrite]

/-- Settles O23. -/
theorem loadStoreOutOfBoundsIsPrecise : Obligations.LoadStoreOutOfBoundsIsPrecise := fun _ _ _ _ _ _ =>
  ⟨exec_ldn_of_firstOut, exec_stn_of_firstOut⟩

/-- Where the bounds fault stands after an effect it stood before, or a load or a store raised it. -/
theorem Effect.boundsFault_cases {i : Instr} {s t : State} (heffect : Effect i s t) (h : t.boundsFault = true) :
    s.boundsFault = true ∨
      (∃ d s1 n k bad, i = .ldn d s1 n k ∧ FirstOut s.cfg.memSize (loadBase d s1 k s) n bad ∧ t.boundsAddr = bad) ∨
      (∃ d s1 n k bad, i = .stn d s1 n k ∧ FirstOut s.cfg.memSize (storeBase d k s) n bad ∧ t.boundsAddr = bad) := by
  cases heffect with
  | loadOut d s1 n k bad hi hout => exact .inr (.inl ⟨d, s1, n, k, bad, hi, hout, rfl⟩)
  | storeOut d s1 n k bad hi hout => exact .inr (.inr ⟨d, s1, n, k, bad, hi, hout, rfl⟩)
  | _ => exact .inl (by simpa using h)

/-- No effect clears the bounds fault. -/
theorem Effect.boundsFault_of_before {i : Instr} {s t : State} (heffect : Effect i s t) (h : s.boundsFault = true) :
    t.boundsFault = true := by
  cases heffect <;> simp [h]

/-- Settles O20: the effects that raise the bounds fault are a load and a store with a byte out of bounds. -/
theorem onlyMemoryAccessesSetBoundsFault : Obligations.OnlyMemoryAccessesSetBoundsFault := by
  intro i s t hexec
  refine ⟨(effect_of_exec hexec).boundsFault_cases, ?_⟩
  rintro (h | ⟨d, s1, n, k, bad, rfl, hout, _⟩ | ⟨d, s1, n, k, bad, rfl, hout, _⟩)
  · exact (effect_of_exec hexec).boundsFault_of_before h
  · obtain rfl := Host.Outcome.next.inj ((exec_ldn_of_firstOut hout).symm.trans hexec)
    rfl
  · obtain rfl := Host.Outcome.next.inj ((exec_stn_of_firstOut hout).symm.trans hexec)
    rfl

/-! The flags (R75). -/

/-- With FLAG_MODE `none` no effect changes a flag. -/
theorem Effect.flags_of_none {i : Instr} {s t : State} (heffect : Effect i s t) (hmode : s.cfg.flagMode = .none) :
    t.flags = s.flags := by
  cases heffect with
  | writeWithFlags d v f => exact State.writeReg_updateFlags_flags_of_none hmode d v f
  | _ => simp

/-- Only ops 0, 1, 13 and 14 change a flag. -/
theorem Effect.flags_of_opcode {i : Instr} {s t : State} (heffect : Effect i s t) (h0 : i.opcode ≠ 0)
    (h1 : i.opcode ≠ 1) (h13 : i.opcode ≠ 13) (h14 : i.opcode ≠ 14) : t.flags = s.flags := by
  cases heffect with
  | writeWithFlags d v f _ _ hop => exact absurd hop (by tauto)
  | _ => simp

/-- The signed sum sets x[d] and the flags as the sum does (R114). -/
theorem exec_adds (d s1 s2 : Reg) (s : State) : exec (.adds d s1 s2) s = exec (.add d s1 s2) s := by
  simp only [exec, execAdds, execAdd, signedAdd_eq]

/-- The signed difference sets x[d] and the flags as the difference does (R115). -/
theorem exec_subs (d s1 s2 : Reg) (s : State) : exec (.subs d s1 s2) s = exec (.sub d s1 s2) s := by
  simp only [exec, execSubs, execSub, signedSub_eq]

/-- Settles O35. -/
theorem signedOpsEqualUnsignedOps : Obligations.SignedOpsEqualUnsignedOps := fun d s1 s2 s =>
  ⟨exec_adds d s1 s2 s, exec_subs d s1 s2 s⟩

/-- With FLAG_MODE `arith` a sum sets the flags of a sum. -/
theorem flags_of_exec_add {d s1 s2 : Reg} {s t : State} (hmode : s.cfg.flagMode = .arith)
    (hexec : exec (.add d s1 s2) s = .next t) :
    t.flags = flagsAdd (s.readReg s1) (s.readReg s2) (s.readReg s1 + s.readReg s2) := by
  obtain rfl := Host.Outcome.next.inj hexec
  exact State.writeReg_updateFlags_flags_of_arith hmode ..

/-- With FLAG_MODE `arith` a difference sets the flags of a difference. -/
theorem flags_of_exec_sub {d s1 s2 : Reg} {s t : State} (hmode : s.cfg.flagMode = .arith)
    (hexec : exec (.sub d s1 s2) s = .next t) :
    t.flags = flagsSub (s.readReg s1) (s.readReg s2) (s.readReg s1 - s.readReg s2) := by
  obtain rfl := Host.Outcome.next.inj hexec
  exact State.writeReg_updateFlags_flags_of_arith hmode ..

/-- Settles O26: the one effect that updates the flags follows FLAG_MODE and is that of ops 0, 1, 13 and 14. -/
theorem flagsAreWrittenByFourOpsInArithOnly : Obligations.FlagsAreWrittenByFourOpsInArithOnly := by
  refine fun i s t hexec => ⟨(effect_of_exec hexec).flags_of_none, fun hmode d s1 s2 => ⟨?sum, ?difference⟩,
    (effect_of_exec hexec).flags_of_opcode⟩
  case sum =>
    rintro (rfl | rfl)
    · exact flags_of_exec_add hmode hexec
    · exact flags_of_exec_add hmode (exec_adds d s1 s2 s ▸ hexec)
  case difference =>
    rintro (rfl | rfl)
    · exact flags_of_exec_sub hmode hexec
    · exact flags_of_exec_sub hmode (exec_subs d s1 s2 s ▸ hexec)

/-! Memory and the display. -/

/-- Equal memories and displays hold equal bytes and cells. -/
theorem keepsMemory_of_eq {s t : State} (hmem : t.mem = s.mem) (hdisplay : t.display = s.display) : KeepsMemory s t :=
  ⟨fun _ => by rw [hmem], State.getPixel_congr hdisplay⟩

/-- Every effect but a store in bounds keeps memory and the display. -/
theorem Effect.keepsMemory {i : Instr} {s t : State} (heffect : Effect i s t) (hop : i.opcode ≠ 7) :
    KeepsMemory s t := by
  cases heffect with
  | store d s1 n k hi => exact absurd (hi ▸ rfl) hop
  | _ => exact keepsMemory_of_eq (by simp) (by simp)

/-- Settles O51. -/
theorem onlyStoresChangeMemory : Obligations.OnlyStoresChangeMemory := fun _ _ _ hexec hop =>
  (effect_of_exec hexec).keepsMemory hop

end Machine

end Sys2Proof

/-! Loads and stores (spec/42_load_store.md, spec/20_memory.md). -/

namespace Sys2Proof

/-- The two low nibbles of a word, below fields that stand at bit 8 and above (R52). -/
theorem join_dest_op {high : HalfWord} {x : Nat} (h : high.toNat = x * 2 ^ 8) (d : Reg) (op : BitVec 4) :
    (high ||| place (Reg.field d) 4 ||| place op 0).toNat = high.toNat + d.val * 2 ^ 4 + op.toNat := by
  have hd : (place (Reg.field d) 4).toNat = d.val * 2 ^ 4 := Machine.place_toNat _ 4 (by decide)
  have hop : (place op 0).toNat = op.toNat * 2 ^ 0 := Machine.place_toNat _ 0 (by decide)
  have joinD := Machine.or_toNat_of_multiple (b := place (Reg.field d) 4) h (by omega)
  have joinOp := Machine.or_toNat_of_multiple (l := 4) (x := x * 2 ^ 4 + d.val) (b := place op 0)
    (joinD.trans (by omega)) (by omega)
  omega

/-- The three low nibbles of a word, below fields that stand at bit 12 and above (R52). -/
theorem join_s1_dest_op {high : HalfWord} {x : Nat} (h : high.toNat = x * 2 ^ 12) (s1 d : Reg) (op : BitVec 4) :
    (high ||| place (Reg.field s1) 8 ||| place (Reg.field d) 4 ||| place op 0).toNat =
      high.toNat + s1.val * 2 ^ 8 + d.val * 2 ^ 4 + op.toNat := by
  have h1 : (place (Reg.field s1) 8).toNat = s1.val * 2 ^ 8 := Machine.place_toNat _ 8 (by decide)
  have join1 := Machine.or_toNat_of_multiple (b := place (Reg.field s1) 8) h (by omega)
  rw [join_dest_op (x := x * 2 ^ 4 + s1.val) (join1.trans (by omega)), join1, h1]

/-- The word of format M as a number: count and skip stand where format R has its second operand, bit 12 is 0 (R53). -/
theorem encodeM_toNat {n : Nat} (h : ByteCount n) (k : Bool) (s1 d : Reg) (op : BitVec 4) :
    (encodeM n k s1 d op).toNat =
      (n - 1) * 2 ^ 14 + k.toNat * 2 ^ 13 + s1.val * 2 ^ 8 + d.val * 2 ^ 4 + op.toNat := by
  obtain ⟨hlo, hhi⟩ := h
  have hcount : (place (BitVec.ofNat 2 (n - 1)) 14).toNat = (n - 1) * 2 ^ 14 := by
    rw [Machine.place_toNat _ 14 (by decide), BitVec.toNat_ofNat, Nat.mod_eq_of_lt (by omega)]
  have hk : (place (BitVec.ofBool k) 13).toNat = k.toNat * 2 ^ 13 := by
    rw [Machine.place_toNat _ 13 (by decide), BitVec.toNat_ofBool]
  have hbit : k.toNat ≤ 1 := Bool.toNat_le k
  have join := Machine.or_toNat_of_multiple (b := place (BitVec.ofBool k) 13) hcount (by omega)
  rw [encodeM, join_s1_dest_op (x := (n - 1) * 2 ^ 2 + k.toNat * 2) (join.trans (by omega)), join, hcount, hk]

namespace Machine

/-! The operands: what the registers hold after the clear and the skip (R93, R95). -/

/-- The skip is seen in x[0] alone. -/
theorem skip_readReg (r : Reg) (k : Bool) (s : State) :
    (skip k s).readReg r = if r = 0 then s.pc + (if k then 2 else 0) else s.readReg r :=
  State.readReg_writeReg s 0 r _

/-- The clear of a load is seen in x[d] alone, before the skip. -/
theorem loadPrepared_readReg (d r : Reg) (k : Bool) (s : State) :
    (loadPrepared d k s).readReg r =
      if r = 0 then (if d = 0 then 0 else s.pc) + (if k then 2 else 0) else if r = d then 0 else s.readReg r := by
  rw [loadPrepared, skip_readReg, State.pc, State.readReg_writeReg, State.readReg_writeReg]
  simp only [eq_comm (a := (0 : Reg))]
  rfl

/-- Settles O44: the base and the value are registers after the clear and the skip. -/
theorem operandsAreReadAfterTheSkip : Obligations.OperandsAreReadAfterTheSkip := by
  intro d s1 k s
  refine ⟨?_, ?_, ?_, ?_, skip_readReg d k s, skip_readReg s1 k s⟩
  · rintro rfl hd
    rw [loadBase, loadPrepared_readReg, if_neg hd, if_pos rfl]
  · rintro rfl hd
    rw [loadBase, loadPrepared_readReg, if_pos rfl, if_neg hd]
  · rintro rfl rfl
    rw [loadBase, loadPrepared_readReg, if_pos rfl, if_pos rfl]
    exact BitVec.zero_add _
  · intro hs1 hne
    rw [loadBase, loadPrepared_readReg, if_neg hs1, if_neg (Ne.symm hne)]

/-! Loads. -/

/-- `n` bytes packed are a value below 2^(8n). -/
theorem readBytes_lt {n : Nat} (hn : n ≤ 4) (a : Word) (s : State) : (readBytes n a s).1.toNat < 2 ^ (8 * n) := by
  induction n generalizing a s with
  | zero => simp [readBytes]
  | succ n ih =>
    have hrest := ih (by omega) (a + 1) (read8 a s).2
    have hfirst := (read8 a s).1.isLt
    rw [readBytes, BitVec.toNat_or]
    refine Nat.or_lt_two_pow ?first ?rest
    case first =>
      rw [BitVec.toNat_setWidth]
      calc _ ≤ (read8 a s).1.toNat := Nat.mod_le ..
        _ < 2 ^ 8 := hfirst
        _ ≤ 2 ^ (8 * (n + 1)) := Nat.pow_le_pow_right (by omega) (by omega)
    case rest =>
      rw [BitVec.toNat_shiftLeft, Nat.shiftLeft_eq]
      calc _ ≤ _ := Nat.mod_le ..
        _ < 2 ^ (8 * n) * 2 ^ 8 := by omega
        _ = 2 ^ (8 * (n + 1)) := by rw [← pow_add, mul_add]

/-- Settles O41: a load in bounds is the clear, the skip, the reads, which change draws alone, and one register write. -/
theorem loadWritesTheBytesRead : Obligations.LoadWritesTheBytesRead := by
  refine fun d s1 n k s hcount => ⟨encodeM_toNat hcount k s1 d 6, fun hin => ?_⟩
  refine ⟨_, exec_ldn_of_inBounds hin, State.readReg_writeReg_same .., ?bound, fun hd => ?pc, fun r hr => ?regs,
    by simp, keepsMemory_of_eq (by simp) (by simp), by simp [KeepsControl]⟩
  case bound =>
    rw [State.readReg_writeReg_same]
    exact readBytes_lt hcount.2 ..
  case pc => rw [State.pc_writeReg_ne _ hd, State.pc, readReg_readBytes, ← State.pc, loadPrepared_pc hd]
  case regs =>
    obtain ⟨h0, hd⟩ : r ≠ 0 ∧ r ≠ d := by simpa using hr
    rw [State.readReg_writeReg_ne _ hd, readReg_readBytes, loadPrepared_readReg, if_neg h0, if_neg hd]

/-- Bytes below 0xFF00 are in bounds in every legal configuration (D6). -/
theorem inBounds_of_plain {c : Config} (h : c.Legal) {a : Word} {n : Nat}
    (hplain : ∀ i < n, (a + BitVec.ofNat 32 i).toNat < 0xFF00) : InBounds c.memSize a n := fun i hi => by
  have := hplain i hi
  have := h.1
  omega

/-- A load from plain memory takes no draw: it writes the bytes read to x[d] after the clear and the skip. -/
theorem exec_ldn_of_plain {d s1 : Reg} {n : Nat} {k : Bool} {s : State} (hn : n ≤ 4) (hlegal : s.cfg.Legal)
    (hplain : ∀ i < n, (loadBase d s1 k s + BitVec.ofNat 32 i).toNat < 0xFF00) : exec (.ldn d s1 n k) s =
      .next ((loadPrepared d k s).writeReg d (readBytes n (loadBase d s1 k s) (loadPrepared d k s)).1) := by
  obtain ⟨hquiet, _⟩ := readBytes_memory n (loadBase d s1 k s) (loadPrepared d k s) hn hplain
  rw [exec_ldn_of_inBounds (inBounds_of_plain hlegal hplain), hquiet]

/-- Settles O42: in plain memory the reads take no draw and give the stored bytes in order. -/
theorem loadFromMemoryIsLittleEndian : Obligations.LoadFromMemoryIsLittleEndian := by
  intro d s1 n k s hcount hlegal hplain
  obtain ⟨_, hbytes⟩ := readBytes_memory n (loadBase d s1 k s) (loadPrepared d k s) hcount.2 hplain
  refine ⟨_, exec_ldn_of_plain hcount.2 hlegal hplain, rfl, fun i hi => ?_, fun i hi => ?_⟩
  · rw [State.readReg_writeReg_same, hbytes, if_pos hi, loadPrepared_mem]
  · rw [State.readReg_writeReg_same, hbytes, if_neg (by omega)]

/-! Stores. -/

/-- Settles O43: a store in bounds is the skip and the writes, which change the bytes and cells covered alone. -/
theorem storeWritesTheBytesAndNothingElse : Obligations.StoreWritesTheBytesAndNothingElse := by
  refine fun d s1 n k s hcount hwf => ⟨encodeM_toNat hcount k s1 d 7, fun hin => ?_⟩
  have hskip : (skip k s).mem.wf := hwf
  exact ⟨_, exec_stn_of_inBounds hin, writeBytes_covered hskip n _ _ hcount.2,
    writeBytes_mem_uncovered hskip n _ _, writeBytes_getPixel_uncovered (skip k s) n _ _,
    (readReg_writeBytes ..).trans (skip_pc k s),
    fun r hr => (readReg_writeBytes ..).trans (skip_readReg_ne (List.ne_of_not_mem_cons hr) k s),
    by simp, by simp [KeepsControl], by simp⟩

end Machine

end Sys2Proof

/-! The address map of one byte (spec/20_memory.md), and memory accesses one after the other. -/

namespace Sys2Proof.Machine

/-! The multiplexer, range by range (R32, R38, R39). -/

/-- An access of one byte at or above MEM_SIZE is out of bounds there. -/
theorem firstOut_one {m : Nat} {a : Word} (h : m ≤ a.toNat) : FirstOut m a 1 a :=
  ⟨0, Nat.zero_lt_one, (BitVec.add_zero a).symm, h, fun _ hj => absurd hj (Nat.not_lt_zero _)⟩

/-- A read of the display range gives the cell. -/
theorem read8_cell {a : Word} (s : State) (hlo : 0xFF00 ≤ a.toNat) (hhi : a.toNat ≤ 0xFF18) :
    read8 a s = (s.getPixel (cellRow a.toNat) (cellColumn a.toNat), s) := by
  rw [read8, if_neg (by omega), if_pos hhi]

/-- A read of the input range takes a draw. -/
theorem read8_input {a : Word} (s : State) (hlo : 0xFF19 ≤ a.toNat) (hhi : a.toNat ≤ 0xFF1F) :
    read8 a s = (s.inputByte, s.nextDraw) := by
  rw [read8, if_neg (by omega), if_neg (by omega), if_pos hhi]

/-- An input byte is its draw zero-extended. -/
theorem inputByte_setWidth (s : State) : s.inputByte.setWidth 32 = (Config.inputDraw s.draws).setWidth 32 := by
  have hdraw := (Config.inputDraw s.draws).isLt
  apply BitVec.eq_of_toNat_eq
  simp only [State.inputByte, BitVec.toNat_setWidth]
  omega

/-- The upper four bits of an input byte are 0 (R37). -/
theorem inputByte_lt (s : State) : (s.inputByte.setWidth 32).toNat < 16 := by
  have hdraw := (Config.inputDraw s.draws).isLt
  rw [inputByte_setWidth, BitVec.toNat_setWidth]
  omega

/-- The row and the column of a display address are the quotient and the remainder by 5 (R36). -/
theorem cell_of_address {a : Nat} {row column : Fin 5} (hrow : row.val = (a - 0xFF00) / 5)
    (hcolumn : column.val = (a - 0xFF00) % 5) : cellRow a = row ∧ cellColumn a = column := by
  simp only [Fin.ext_iff, cellRow, cellColumn, Fin.val_ofNat]
  omega

/-- A cell is that of a display address exactly when its index is. -/
theorem cell_iff_index {a : Nat} (hlo : 0xFF00 ≤ a) (hhi : a ≤ 0xFF18) (row column : Fin 5) :
    (row = cellRow a ∧ column = cellColumn a) ↔ row.val * 5 + column.val = a - 0xFF00 := by
  rw [← cellIndex_inj, Fin.ext_iff, cellIndex_of_address hlo hhi]
  rfl

/-- Settles O46: a read in bounds is one read of the multiplexer, range by range. -/
theorem readFollowsTheAddressMap : Obligations.ReadFollowsTheAddressMap := by
  intro a s ⟨hmin, _⟩
  refine ⟨fun hram => ?ram, fun hlo hhi row column hrow hcolumn => ?display, fun hlo hhi => ?input,
    fun hout => memRead_error (firstOut_one hout)⟩
  case ram => rw [memRead_one (by omega), read8_ram s hram]
  case display =>
    obtain ⟨rfl, rfl⟩ := cell_of_address hrow hcolumn
    rw [memRead_one (by omega), read8_cell s hlo hhi]
  case input => exact ⟨_, by rw [memRead_one (by omega), read8_input s hlo hhi], inputByte_lt s⟩

/-- A write below 0xFF00 replaces the stored byte. -/
theorem write8_ram {a : Word} (b : Byte) (s : State) (h : a.toNat < 0xFF00) :
    write8 a b s = { s with mem := s.mem.write a.toNat b } := if_pos h

/-- A write of the display range replaces the cell. -/
theorem write8_cell {a : Word} (b : Byte) (s : State) (hlo : 0xFF00 ≤ a.toNat) (hhi : a.toNat ≤ 0xFF18) :
    write8 a b s = s.setPixel (cellRow a.toNat) (cellColumn a.toNat) b := by
  rw [write8, if_neg (by omega), if_pos hhi]

/-- Settles O47: a write in bounds is one write of the multiplexer, range by range. -/
theorem writeFollowsTheAddressMap : Obligations.WriteFollowsTheAddressMap := by
  intro a v s ⟨hmin, _⟩ hwf
  refine ⟨fun hram => ?ram, fun hlo hhi => ?display, fun hlo hhi => ?input,
    fun hout => memWrite_error (firstOut_one hout)⟩
  case ram =>
    refine ⟨_, by rw [memWrite_one v (by omega), write8_ram _ s hram], rfl, fun x => ?_⟩
    exact (Memory.read_write hwf ..).trans (by rw [setWidth_low_byte])
  case display =>
    refine ⟨_, by rw [memWrite_one v (by omega), write8_cell _ s hlo hhi], rfl, fun row column => ?_⟩
    rw [State.getPixel_setPixel, setWidth_low_byte]
    simp only [cell_iff_index hlo hhi]
  case input => rw [memWrite_one v (by omega), write8_above_display _ s hlo]

/-- Settles O49: the two reads take the draws in ascending order of address. -/
theorem inputBytesAreSeparateDraws : Obligations.InputBytesAreSeparateDraws := by
  intro a s ⟨hmin, _⟩ hlo hhi
  have hnext : (a + 1).toNat = a.toNat + 1 := by bv_omega
  have hin : InBounds s.cfg.memSize a 2 := by
    intro i hi
    have hi : i = 0 ∨ i = 1 := by omega
    obtain rfl | rfl := hi
    · simpa using by omega
    · exact lt_of_eq_of_lt hnext (by omega)
  rw [memRead_ok hin]
  simp only [readBytes, read8_input s hlo (by omega), read8_input s.nextDraw (a := a + 1) (by omega) (by omega),
    inputByte_setWidth, State.nextDraw_draws]
  rw [show (0 : Word) <<< 8 = 0#32 from rfl, BitVec.or_zero, BitVec.or_comm]

/-! A load after a store. -/

/-- A word whose bytes below `n` are those of `v` and whose other bytes are 0 is `v` reduced to `n` bytes. -/
theorem toNat_of_low_bytes {x v : Word} {n : Nat}
    (h : ∀ i, x.extractLsb' (8 * i) 8 = if i < n then v.extractLsb' (8 * i) 8 else 0) :
    x.toNat = v.toNat % 2 ^ (8 * n) := by
  apply Nat.eq_of_testBit_eq
  intro j
  have hj : 8 * (j / 8) + j % 8 = j := Nat.div_add_mod j 8
  have hlt : j % 8 < 8 := Nat.mod_lt _ (by decide)
  have hbit := congrArg (BitVec.getLsbD · (j % 8)) (h (j / 8))
  simp only [BitVec.getLsbD_extractLsb', hlt, hj, decide_true, Bool.true_and] at hbit
  rw [Nat.testBit_mod_two_pow, BitVec.testBit_toNat, BitVec.testBit_toNat, hbit]
  by_cases hn : j / 8 < n
  · have hlow : j < 8 * n := by omega
    simp [hn, hj, hlt, hlow]
  · have hhigh : ¬ j < 8 * n := by omega
    simp [hn, hhigh]

/-- The addresses of an access that ends below 0xFF00 do not wrap. -/
theorem plain_address {a : Word} {n i : Nat} (h : a.toNat + n ≤ 0xFF00) (hi : i < n) :
    (a + BitVec.ofNat 32 i).toNat = a.toNat + i := by
  rw [BitVec.toNat_add, BitVec.toNat_ofNat]
  omega

/-- Settles O45: the bytes loaded are those the store left, so they are the low bytes of its value. -/
theorem loadAfterStoreGivesTheValue : Obligations.LoadAfterStoreGivesTheValue := by
  intro d s1 r n k k' s t u hcount hwf hlegal hd hr hrd hplain hstore hcfg hreg hmem
  have hstoreBase : storeBase d k s = s.readReg d := skip_readReg_ne hd k s
  have hloadBase : loadBase r d k' u = s.readReg d := by
    rw [loadBase, loadPrepared_readReg, if_neg hd, if_neg (Ne.symm hrd), hreg]
  have hbelow : ∀ i < n, (s.readReg d + BitVec.ofNat 32 i).toNat < 0xFF00 := fun i hi => by
    rw [plain_address hplain hi]
    omega
  have hin : InBounds s.cfg.memSize (storeBase d k s) n := inBounds_of_plain hlegal (hstoreBase ▸ hbelow)
  obtain rfl := Host.Outcome.next.inj ((exec_stn_of_inBounds hin).symm.trans hstore)
  refine ⟨_, exec_ldn_of_plain hcount.2 (hcfg ▸ hlegal) (hloadBase ▸ hbelow), ?_⟩
  rw [State.readReg_writeReg_same, hloadBase]
  obtain ⟨_, hread⟩ := readBytes_memory n (s.readReg d) (loadPrepared r k' u) hcount.2 hbelow
  refine toNat_of_low_bytes fun i => (hread i).trans ?_
  split
  · next hi =>
    have hwrite := writeBytes_covered (s := skip k s) hwf n (storeBase d k s) (storeValue s1 k s) hcount.2 i hi
      _ (by rw [hstoreBase, plain_address hplain hi])
    rw [loadPrepared_mem, plain_address hplain hi, hmem i hi]
    exact hwrite.1 (by omega)
  · rfl

/-! A fetch after a store (D9). -/

/-- A fetch in plain memory reads the two bytes and changes nothing. -/
theorem fetch_of_plain {s : State} (hlegal : s.cfg.Legal) (hpc : s.pc.toNat + 1 < 0xFF00) :
    fetch s = .ok (wordOfBytes (s.mem.read s.pc.toNat) (s.mem.read (s.pc.toNat + 1)), s) := by
  have hnext : (s.pc + 1).toNat = s.pc.toNat + 1 := by bv_omega
  obtain ⟨_, ⟨i, hi, rfl, hout, _⟩, _⟩ | ⟨_, hfetch⟩ := fetch_cases s
  · have hmin := hlegal.1
    have haddress := plain_address (a := s.pc) (n := 2) (by omega) hi
    omega
  · rw [hfetch, read8_ram s (by omega), read8_ram s (by omega), hnext]

/-- The two low bytes of a word make its low half. -/
theorem wordOfBytes_of_low_bytes (v : Word) :
    wordOfBytes (v.extractLsb' 0 8) (v.extractLsb' 8 8) = v.extractLsb' 0 16 := by
  refine BitVec.eq_of_getLsbD_eq fun i hi => ?_
  rw [wordOfBytes_getLsbD]
  split
  · next hlow => simp [hlow, hi]
  · next hhigh =>
    have hsub : 8 + (i - 8) = i := by omega
    simp [hsub, hi, show i - 8 < 8 by omega]

/-- Settles O50: the store's two bytes stand where the fetch reads, since x[0] is the base and does not move. -/
theorem fetchSeesAnEarlierStore : Obligations.FetchSeesAnEarlierStore := by
  intro s1 s hlegal hwf hpc
  have hnoSkip (r : Reg) : (skip false s).readReg r = s.readReg r := by
    rw [skip_readReg]
    split
    · next h => rw [h]; exact BitVec.add_zero _
    · rfl
  have hbase : storeBase 0 false s = s.pc := hnoSkip 0
  have hvalue : storeValue s1 false s = s.readReg s1 := hnoSkip s1
  have hadd {i : Nat} (hi : i < 2) := plain_address (a := s.pc) (by omega) hi
  have hin : InBounds s.cfg.memSize (storeBase 0 false s) 2 :=
    inBounds_of_plain hlegal fun i hi => by rw [hbase, hadd hi]; omega
  refine ⟨_, exec_stn_of_inBounds hin, ?_⟩
  rw [hbase, hvalue]
  have hpc' : (writeBytes 2 s.pc (s.readReg s1) (skip false s)).pc = s.pc := (readReg_writeBytes ..).trans hbase
  have hcovered {i : Nat} (hi : i < 2) :=
    writeBytes_covered (s := skip false s) hwf 2 s.pc (s.readReg s1) (by decide) i hi _ (hadd hi).symm
  rw [fetch_of_plain (by simpa using hlegal) (by rwa [hpc']), hpc', ← wordOfBytes_of_low_bytes]
  congr 3
  · exact (hcovered (i := 0) (by decide)).1 (by omega)
  · exact (hcovered (i := 1) (by decide)).1 (by omega)

end Sys2Proof.Machine

/-! Reset, launch and the image load (spec/10_state.md section 7, spec/70_reset_and_hazards.md sections 1 and 2). -/

namespace Sys2Proof.Machine

/-- Every register is 0 after reset. -/
theorem resetWith_readReg (c : Config) (r : Reg) : (State.resetWith c).readReg r = 0 := by
  simp [State.readReg, State.resetWith]

/-- Settles O1: the registers by `resetWith_readReg`, the rest by the definition of the reset state. -/
theorem resetLeavesEveryResetValue : Obligations.ResetLeavesEveryResetValue := fun c =>
  ⟨resetWith_readReg c, rfl, rfl, rfl, rfl, rfl, fun _ => rfl, fun _ _ => rfl, rfl, rfl, resetWith_readReg c 0⟩

/-- A launch state with a legal configuration and a canonical visible memory meets the invariant. -/
theorem State.Launch.inv {s : State} (h : s.Launch) (hlegal : s.cfg.Legal) (hwf : s.mem.wf) (hvisible : s.mem.Visible) :
    s.Inv where
  legal := hlegal
  canonical := hwf
  visible := hvisible
  faulted_iff := by simp [h.running, h.noFault, h.noBoundsFault]
  oneFault := by simp [h.noFault]
  boundsAddr_out := by simp [h.noBoundsFault]
  refused_running := fun _ => h.running

/-- The invariant holds after reset: it is a launch state with an empty memory. -/
theorem resetWith_inv {c : Config} (h : c.Legal) : (State.resetWith c).Inv :=
  State.Launch.inv ⟨rfl, rfl, rfl, rfl, rfl⟩ h Memory.wf_nil (by simp [State.resetWith, Memory.Visible])

/-- Settles O2. -/
theorem startStatesMeetTheInvariant : Obligations.StartStatesMeetTheInvariant :=
  ⟨fun _ => resetWith_inv, resetWith_inv (by decide), fun _ => State.Launch.inv⟩

/-- What the image load puts at an address below 0xFF00: the byte of the image that falls there, if one does (R148). -/
theorem copyImage_read {m : Memory} (h : m.wf) (a : Nat) (image : List Byte) {x : Nat} (hx : x < 0xFF00) :
    (copyImage a image m).read x = if x < a then m.read x else image.getD (x - a) (m.read x) := by
  induction image generalizing a m with
  | nil => simp [copyImage]
  | cons b image ih =>
    have hwf : (if a < 0xFF00 then m.write a b else m).wf := by
      split
      · exact Memory.write_wf h a b
      · exact h
    have hread : (if a < 0xFF00 then m.write a b else m).read x = if x = a then b else m.read x := by
      split
      · exact Memory.read_write h a b x
      · rw [if_neg (by omega)]
    rw [copyImage, ih hwf, hread]
    obtain hlt | rfl | hgt := Nat.lt_trichotomy x a
    · rw [if_pos (by omega), if_neg (by omega), if_pos hlt]
    · simp
    · have hindex : x - a = x - (a + 1) + 1 := by omega
      rw [if_neg (by omega), if_neg (by omega), if_neg (by omega), hindex, List.getD_cons_succ]

/-- Settles O4: the load is the copy into the empty memory of a launch state, or the rejection of a long image. -/
theorem imageLoadCopiesFromAddressZero : Obligations.ImageLoadCopiesFromAddressZero := by
  intro c image hlegal
  constructor
  · intro hlong
    rw [boot, if_neg (not_not_intro hlegal), if_pos hlong]
  · intro hfits
    obtain ⟨hwf, hvisible⟩ := copyImage_wf Memory.wf_nil (fun p hp => absurd hp List.not_mem_nil) 0 image
    refine ⟨{ State.resetWith c with mem := copyImage 0 image [] }, ?boots,
      State.Launch.inv ⟨rfl, rfl, rfl, rfl, rfl⟩ hlegal hwf hvisible, fun i hi => ?bytes, rfl⟩
    case boots => rw [boot, if_neg (not_not_intro hlegal), if_neg (by omega)]
    case bytes => exact copyImage_read Memory.wf_nil 0 image hi

end Sys2Proof.Machine

/-! The fetch and the step (spec/30_encoding.md R58, R61; spec/60_exceptions.md). -/

namespace Sys2Proof.Machine

/-- A fetch in bounds reads the byte at x[0] and then the byte after it. -/
theorem fetch_of_inBounds {s : State} (h : InBounds s.cfg.memSize s.pc 2) :
    fetch s = .ok (wordOfBytes (read8 s.pc s).1 (read8 (s.pc + 1) (read8 s.pc s).2).1,
      (read8 (s.pc + 1) (read8 s.pc s).2).2) := by
  simp only [fetch, (firstOutOfBounds_none ..).2 h]

/-- A fetch out of bounds reports the first byte out of bounds. -/
theorem fetch_of_firstOut {s : State} {bad : Word} (h : FirstOut s.cfg.memSize s.pc 2 bad) : fetch s = .error bad := by
  simp only [fetch, (firstOutOfBounds_some ..).2 h]

/-- Settles O13. -/
theorem fetchIsCheckedAndLittleEndian : Obligations.FetchIsCheckedAndLittleEndian := fun _ =>
  ⟨fun _ => fetch_of_firstOut, fun hin => ⟨_, _, fetch_of_inBounds hin, wordOfBytes_low .., wordOfBytes_high ..,
    fetch_state (fetch_of_inBounds hin)⟩⟩

/-- Settles O11: the fetch is the two reads, and in plain memory the two stored bytes. -/
theorem stepRunsTheDecodedInstruction : Obligations.StepRunsTheDecodedInstruction := by
  refine fun s hready hin => ⟨?_, fun i hplain hdecode => ?_⟩
  · rintro lo hi rfl rfl
    exact step_of_fetch hready (fetch_of_inBounds hin)
  · have hi : decodeWord (wordOfBytes (s.mem.read s.pc.toNat) (s.mem.read (s.pc.toNat + 1))) = i :=
      congrArg Prod.fst (Except.ok.inj hdecode)
    rw [step_of_fetch hready (fetch_of_plain hready.legal hplain), hi]

/-- With a bounds fault and no refusal the end of a step moves LOOP to FAULTED (R124). -/
theorem endStep_of_boundsFault {s : State} (hrefused : s.refused = false) (hbounds : s.boundsFault = true) :
    endStep s = { s with loop := .faulted } := by
  simp [endStep, hrefused, hbounds]

/-- Settles O14: the step is OutOfBounds in the state before the fetch advance, and its end moves LOOP. -/
theorem fetchOutOfBoundsEndsTheRun : Obligations.FetchOutOfBoundsEndsTheRun := by
  intro s bad hready hout
  calc step s
    _ = .next (endStep (raiseOutOfBounds bad s)) := by rw [step_of_ready hready, fetch_of_firstOut hout]
    _ = .next { s with boundsFault := true, boundsAddr := bad, loop := .faulted } :=
      congrArg Host.Outcome.next (endStep_of_boundsFault hready.notRefused rfl)

/-- A refused state in RUNNING takes no step (R28). -/
theorem step_of_refused {s : State} (hrunning : s.loop = .running) (hrefused : s.refused = true) :
    step s = .refused .refusalMark := by
  rw [step, if_neg (by simp [hrunning]), if_pos hrefused]

/-- A state with an illegal MEM_SIZE takes no step (D6). -/
theorem step_of_illegal {s : State} (hrunning : s.loop = .running) (hrefused : s.refused = false)
    (hillegal : ¬ s.cfg.Legal) : step s = .refused (.illegalMemSize s.cfg.memSize) := by
  rw [step, if_neg (by simp [hrunning]), if_neg (by simp [hrefused]), if_pos hillegal]

/-- Settles O16. -/
theorem refusedTakesNoStep : Obligations.RefusedTakesNoStep := fun _ hrunning =>
  ⟨step_of_refused hrunning, step_of_illegal hrunning⟩

/-- The three pairs of fault flags that the invariant leaves (R128). -/
theorem State.Inv.fault_cases {s : State} (h : s.Inv) : (s.fault = true ∧ s.boundsFault = false) ∨
    (s.fault = false ∧ s.boundsFault = true) ∨ (s.fault = false ∧ s.boundsFault = false) := by
  have hone := h.oneFault
  cases hfault : s.fault with
  | true => exact .inl ⟨rfl, eq_false_of_ne_true fun hbounds => hone ⟨hfault, hbounds⟩⟩
  | false => cases s.boundsFault <;> simp

/-- Settles O21: each pair of fault flags that the invariant leaves has its cause, or none in RUNNING. -/
theorem faultCauseIsReadFromTheFlags : Obligations.FaultCauseIsReadFromTheFlags := by
  intro s hinv
  rw [hinv.faulted_iff]
  obtain ⟨hfault, hbounds⟩ | ⟨hfault, hbounds⟩ | ⟨hfault, hbounds⟩ := hinv.fault_cases
  · have hcause : s.faultCause = some .invalidCondition := by simp [State.faultCause, hfault]
    simp [hcause, hfault, hbounds, FaultCause.code]
  · have hcause : s.faultCause = some .outOfBounds := by simp [State.faultCause, hfault, hbounds]
    simp [hcause, hfault, hbounds, FaultCause.code]
  · have hcause : s.faultCause = none := by simp [State.faultCause, hfault, hbounds]
    simp [hcause, hfault, hbounds]

/-! The jump to itself (R158). -/

/-- A jump back over the fetch advance undoes it but for the count. -/
theorem advance_writeReg_pc (s : State) : { (advance s).writeReg 0 s.pc with retired := s.retired } = s := by
  have hregs : ((advance s).writeReg 0 s.pc).regs = s.regs := by
    refine State.regs_ext fun r => ?_
    rw [State.readReg_writeReg, readReg_advance]
    split
    · next h => rw [h]; rfl
    · rfl
  exact State.ext rfl hregs rfl rfl rfl rfl rfl rfl rfl rfl rfl rfl

/-- A difference with FLAG_MODE `none` is one register write. -/
theorem exec_sub_of_none {s : State} (hmode : s.cfg.flagMode = .none) (d s1 s2 : Reg) :
    exec (.sub d s1 s2) s = .next (s.writeReg d (s.readReg s1 - s.readReg s2)) := by
  simp only [exec, execSub, State.updateFlags, State.writeReg_cfg, hmode]

/-- Settles O59: the step subtracts from x[0] the 2 that the fetch advance added, and with no fault flag set its end
changes nothing. -/
theorem jumpToSelfIsIdle : Obligations.JumpToSelfIsIdle := by
  intro r s hready hfault hbounds hmode hr htwo hpc hdecode
  have hword : decodeWord (wordOfBytes (s.mem.read s.pc.toNat) (s.mem.read (s.pc.toNat + 1))) = .sub 0 0 r :=
    congrArg Prod.fst (Except.ok.inj hdecode)
  have hback : (advance s).readReg 0 - (advance s).readReg r = s.pc := by
    rw [readReg_advance, readReg_advance, if_pos rfl, if_neg hr, htwo, BitVec.add_sub_cancel]
  refine ⟨hready.running, (advance s).writeReg 0 s.pc, ?_, advance_writeReg_pc s⟩
  calc step s
    _ = endOutcome (exec (.sub 0 0 r) (advance s)) := by
      rw [step_of_fetch hready (fetch_of_plain hready.legal hpc), hword]
    _ = .next (endStep ((advance s).writeReg 0 s.pc)) := by rw [exec_sub_of_none (s := advance s) hmode, hback]; rfl
    _ = .next ((advance s).writeReg 0 s.pc) := congrArg Host.Outcome.next (endStep_of_noFault hfault hbounds)

end Sys2Proof.Machine

/-! What the flags and the shift functions mean (spec/40_alu.md section 1, spec/41_shift.md section 1). -/

namespace Sys2Proof.Machine

/-! The flags of a sum and of a difference (R76). -/

/-- Bit 31 of a word by its value. -/
theorem msb_iff (v : Word) : v.msb = true ↔ 2 ^ 31 ≤ v.toNat := by
  rw [BitVec.msb_eq_decide, decide_eq_true_iff]

/-- The carry of a sum is set when its unsigned value does not fit. -/
theorem flagsAdd_c_iff (a b : Word) : (flagsAdd a b (a + b)).c = true ↔ (a + b).toNat ≠ a.toNat + b.toNat := by
  rw [flagsAdd, decide_eq_true_iff, BitVec.toNat_add]
  omega

/-- The overflow of a sum is that of the signed sum. -/
theorem flagsAdd_v (a b : Word) : (flagsAdd a b (a + b)).v = a.saddOverflow b := (BitVec.saddOverflow_eq a b).symm

/-- The overflow of a sum is set when its signed value does not fit. -/
theorem flagsAdd_v_iff (a b : Word) : (flagsAdd a b (a + b)).v = true ↔ (a + b).toInt ≠ a.toInt + b.toInt := by
  rw [flagsAdd_v]
  constructor
  · intro hover hexact
    have hlt : (a + b).toInt < 2 ^ 31 := BitVec.toInt_lt
    have hle : -2 ^ 31 ≤ (a + b).toInt := BitVec.le_toInt _
    simp only [BitVec.saddOverflow, Bool.or_eq_true, decide_eq_true_iff] at hover
    omega
  · intro hne
    by_contra hfits
    exact hne (BitVec.toInt_add_of_not_saddOverflow hfits)

/-- A difference is zero when its operands are equal. -/
theorem flagsSub_z_iff (a b : Word) : (flagsSub a b (a - b)).z = true ↔ a = b := by
  rw [flagsSub, decide_eq_true_iff]
  exact sub_eq_zero

/-- The borrow of a difference is set when its unsigned value does not fit. -/
theorem flagsSub_c_iff (a b : Word) :
    (flagsSub a b (a - b)).c = true ↔ ((a - b).toNat : Int) ≠ (a.toNat : Int) - b.toNat := by
  have ha := a.isLt
  have hb := b.isLt
  rw [flagsSub, decide_eq_true_iff, toNat_sub_emod]
  omega

/-- The overflow of a difference is that of the signed difference. -/
theorem flagsSub_v (a b : Word) : (flagsSub a b (a - b)).v = a.ssubOverflow b := by
  rw [BitVec.ssubOverflow_eq]
  change ((a.msb != b.msb) && ((a - b).msb != a.msb)) = _
  generalize a.msb = x
  generalize b.msb = y
  generalize (a - b).msb = z
  revert x y z
  decide

/-- The overflow of a difference is set when its signed value does not fit. -/
theorem flagsSub_v_iff (a b : Word) : (flagsSub a b (a - b)).v = true ↔ (a - b).toInt ≠ a.toInt - b.toInt := by
  rw [flagsSub_v]
  constructor
  · intro hover hexact
    have hlt : (a - b).toInt < 2 ^ 31 := BitVec.toInt_lt
    have hle : -2 ^ 31 ≤ (a - b).toInt := BitVec.le_toInt _
    simp only [BitVec.ssubOverflow, Bool.or_eq_true, decide_eq_true_iff] at hover
    omega
  · intro hne
    by_contra hfits
    exact hne (BitVec.toInt_sub_of_not_ssubOverflow hfits)

/-- Settles O27. -/
theorem flagsMeanZeroSignCarryOverflow : Obligations.FlagsMeanZeroSignCarryOverflow := fun a b =>
  ⟨decide_eq_true_iff, msb_iff _, flagsAdd_c_iff a b, flagsAdd_v_iff a b, flagsSub_z_iff a b, msb_iff _,
    flagsSub_c_iff a b, flagsSub_v_iff a b⟩

/-! The shift functions (R87): each is the unbounded shift, since an amount of 32 or more shifts every bit out. -/

/-- SHL for every amount. -/
theorem shl_eq (v : Word) (a : Nat) : shl v a = v <<< a := by
  unfold shl
  split
  · rfl
  · next h => exact (BitVec.shiftLeft_eq_zero (by omega)).symm

/-- SRL for every amount. -/
theorem srl_eq (v : Word) (a : Nat) : srl v a = v >>> a := by
  unfold srl
  split
  · rfl
  · next h => exact (BitVec.ushiftRight_eq_zero (by omega)).symm

/-- SAR with the 32-bit mask is the arithmetic right shift: the bits above the shifted word are copies of bit 31. -/
theorem sar_width32 (v : Word) (a : Nat) : sar .width32 v a = v.sshiftRight a := by
  have hmask (i : Nat) : (sarMask .width32).getLsbD i = decide (i < 32) := BitVec.getLsbD_allOnes (v := 32)
  refine BitVec.eq_of_getLsbD_eq fun i hi => ?_
  have hin : (32 ≤ i) = False := by simp [hi]
  rw [sar, srl_eq, srl_eq, BitVec.getLsbD_sshiftRight]
  by_cases hlow : a + i < 32
  · cases v.msb <;> simp [-BitVec.getLsbD_eq_getElem, hi, hin, hmask, hlow]
  · have hout : v.getLsbD (a + i) = false := BitVec.getLsbD_of_ge v _ (by omega)
    cases v.msb <;> simp [-BitVec.getLsbD_eq_getElem, hi, hin, hmask, hlow, hout]

/-- Settles O36. -/
theorem shiftFunctionsAreUnbounded : Obligations.ShiftFunctionsAreUnbounded := by
  refine fun v a => ⟨?left, ?right, ?arithmetic, fun hpos => ?positive, fun hneg => ?negative⟩
  case left => rw [shl_eq, BitVec.toNat_shiftLeft, Nat.shiftLeft_eq]
  case right => rw [srl_eq, BitVec.toNat_ushiftRight, Nat.shiftRight_eq_div_pow]
  case arithmetic => rw [sar_width32, BitVec.toInt_sshiftRight, Int.shiftRight_eq_div_pow]; norm_cast
  case positive => rw [sar, if_neg (by simp [hpos])]
  case negative => rw [sar, if_pos hneg]; rfl

end Sys2Proof.Machine

/-! Signed arithmetic and the shifts as instructions (spec/44_signed_arith.md, spec/41_shift.md R84 to R90). -/

namespace Sys2Proof

/-- The word of format SI as a number: word[15] is 0, and no field overlaps another (R53, R88). -/
theorem encodeSI_toNat (sel : BitVec 2) (imm : BitVec 5) (d : Reg) :
    (encodeSI sel imm d).toNat = sel.toNat * 2 ^ 13 + imm.toNat * 2 ^ 8 + d.val * 2 ^ 4 + 0x5 := by
  have hsel : (place sel 13).toNat = sel.toNat * 2 ^ 13 := Machine.place_toNat _ 13 (by decide)
  have himm : (place imm 8).toNat = imm.toNat * 2 ^ 8 := Machine.place_toNat _ 8 (by decide)
  have join := Machine.or_toNat_of_multiple (b := place imm 8) hsel (by omega)
  rw [encodeSI, join_dest_op (x := sel.toNat * 2 ^ 5 + imm.toNat) (join.trans (by omega)), join, hsel, himm]
  rfl

/-- The word of format SR as a number: word[15] is 1, bit 12 is 0 (R53, R89). -/
theorem encodeSR_toNat (sel : BitVec 2) (s1 d : Reg) :
    (encodeSR sel s1 d).toNat = 0x8000 + sel.toNat * 2 ^ 13 + s1.val * 2 ^ 8 + d.val * 2 ^ 4 + 0x5 := by
  have hmode : (place 1#1 15).toNat = 1 * 2 ^ 15 := by decide
  have hsel : (place sel 13).toNat = sel.toNat * 2 ^ 13 := Machine.place_toNat _ 13 (by decide)
  have join := Machine.or_toNat_of_multiple (b := place sel 13) hmode (by omega)
  rw [encodeSR, join_s1_dest_op (x := 2 ^ 3 + sel.toNat * 2) (join.trans (by omega)), join, hmode, hsel]
  rfl

namespace Machine

/-- The sum with a signed operand over the integers (R114). -/
theorem toNat_signedAdd (a b : Word) : ((signedAdd a b).toNat : Int) = (a.toNat + b.toInt) % 2 ^ 32 := by
  rw [signedAdd, BitVec.toNat_ofInt]
  omega

/-- The difference with a signed operand over the integers (R115). -/
theorem toNat_signedSub (a b : Word) : ((signedSub a b).toNat : Int) = (a.toNat - b.toInt) % 2 ^ 32 := by
  rw [signedSub, BitVec.toNat_ofInt]
  omega

/-- What an instruction that sets the flags from its result leaves: the flags follow FLAG_MODE, and everything else but
x[d] is as it was (R75). -/
theorem State.writeReg_updateFlags_spec (s : State) (d : Reg) (v : Word) (flags : Word → Flags) {t : State}
    (ht : t = (s.writeReg d v).updateFlags (flags v)) :
    (s.cfg.flagMode = .none → t.flags = s.flags) ∧
    (s.cfg.flagMode = .arith → t.flags = flags (t.readReg d)) ∧ KeepsAllBut [d] s t := by
  subst ht
  refine ⟨fun hmode => State.writeReg_updateFlags_flags_of_none hmode .., fun hmode => ?_, keepsAllBut_updateFlags ..⟩
  rw [State.readReg_writeReg_updateFlags, State.writeReg_updateFlags_flags_of_arith hmode]

/-- Settles O33: one register write of the signed sum, and the flag update with the result that x[d] then holds. -/
theorem addsWritesTheSumWithASignedOperand : Obligations.AddsWritesTheSumWithASignedOperand := fun d s1 s2 s =>
  ⟨encodeR_toNat s2 s1 d 13, _, rfl, by rw [State.readReg_writeReg_updateFlags, toNat_signedAdd],
    State.writeReg_updateFlags_spec s d _ (flagsAdd (s.readReg s1) (s.readReg s2)) rfl⟩

/-- Settles O34: one register write of the signed difference, and the flag update with the result that x[d] then holds. -/
theorem subsWritesTheDifferenceWithASignedOperand : Obligations.SubsWritesTheDifferenceWithASignedOperand :=
  fun d s1 s2 s => ⟨encodeR_toNat s2 s1 d 14, _, rfl,
    by rw [State.readReg_writeReg_updateFlags, toNat_signedSub],
    State.writeReg_updateFlags_spec s d _ (flagsSub (s.readReg s1) (s.readReg s2)) rfl⟩

/-! The kind of a shift. -/

/-- In `register` mode the kind is x[0] or x[2], by bit 1 of the selector field (D12). -/
theorem shiftSelector_register {s : State} (h : s.cfg.shiftSelect = .register) (sel : BitVec 2) :
    shiftSelector sel s = s.readReg (if sel.getLsbD 1 then 2 else 0) := by
  simp only [shiftSelector, h]

/-- In `instruction` mode the kind is the selector field (D12). -/
theorem shiftSelector_instruction {s : State} (h : s.cfg.shiftSelect = .instruction) (sel : BitVec 2) :
    shiftSelector sel s = sel.setWidth 32 := by
  simp only [shiftSelector, h]

/-- A value of 3 or more stands for no kind (D13). -/
theorem ofWord_of_three_le {v : Word} (h : 3 ≤ v.toNat) : ShiftKind.ofWord v = none := by
  have hne {k : Word} (hk : k.toNat < 3) : v ≠ k := by rintro rfl; omega
  rw [ShiftKind.ofWord, if_neg (hne (by decide)), if_neg (hne (by decide)), if_neg (hne (by decide))]

/-- Settles O37. -/
theorem shiftKindIsSelectedByTheMode : Obligations.ShiftKindIsSelectedByTheMode := by
  refine fun s sel => ⟨fun hmode hsel => ?zero, fun hmode hsel => ?two, fun hmode => ?word, rfl, rfl, rfl,
    fun _ => ofWord_of_three_le⟩
  case zero => rw [shiftSelector_register hmode, hsel]; rfl
  case two => rw [shiftSelector_register hmode, hsel]; rfl
  case word => rw [shiftSelector_instruction hmode, BitVec.toNat_setWidth, Nat.mod_eq_of_lt (by omega)]

/-! A shift of a known kind, in place (R88 to R90). -/

/-- It is one register write. -/
theorem shiftInPlace_of_kind {sel : BitVec 2} {s : State} {kind : ShiftKind}
    (h : ShiftKind.ofWord (shiftSelector sel s) = some kind) (d : Reg) (amount : Nat) :
    shiftInPlace d amount sel s = s.writeReg d (shiftBy s.cfg.sarFill kind (s.readReg d) amount) := by
  simp only [shiftInPlace, h]

/-- What the write leaves: the shift of the kind in x[d], everything else as it was. -/
theorem shiftInPlace_spec {sel : BitVec 2} {s : State} {kind : ShiftKind}
    (h : ShiftKind.ofWord (shiftSelector sel s) = some kind) (d : Reg) (amount : Nat) :
    (kind = .left → (shiftInPlace d amount sel s).readReg d = shl (s.readReg d) amount) ∧
    (kind = .logicalRight → (shiftInPlace d amount sel s).readReg d = srl (s.readReg d) amount) ∧
    (kind = .arithmeticRight → (shiftInPlace d amount sel s).readReg d = sar s.cfg.sarFill (s.readReg d) amount) ∧
    (shiftInPlace d amount sel s).flags = s.flags ∧ KeepsAllBut [d] s (shiftInPlace d amount sel s) := by
  rw [shiftInPlace_of_kind h, State.readReg_writeReg_same]
  exact ⟨fun hkind => hkind ▸ rfl, fun hkind => hkind ▸ rfl, fun hkind => hkind ▸ rfl, rfl,
    keepsAllBut_writeReg ..⟩

/-- Settles O38. -/
theorem shiftiShiftsInPlaceByTheImmediate : Obligations.ShiftiShiftsInPlaceByTheImmediate := fun d imm sel _ =>
  ⟨encodeSI_toNat sel imm d, fun _ hkind => ⟨_, rfl, shiftInPlace_spec hkind d imm.toNat⟩⟩

/-- Settles O39. -/
theorem shiftrShiftsInPlaceByARegister : Obligations.ShiftrShiftsInPlaceByARegister := fun d s1 sel s =>
  ⟨encodeSR_toNat sel s1 d, fun _ hkind => ⟨_, rfl, shiftInPlace_spec hkind d (s.readReg s1).toNat⟩⟩

/-! A shift of an unknown kind (R86). -/

/-- Both shifts of an unknown kind are refused. -/
theorem exec_shift_of_unknown {i : Instr} {d s1 : Reg} {imm : BitVec 5} {sel : BitVec 2} {s : State}
    (hi : i = .shifti d imm sel ∨ i = .shiftr d s1 sel) (h : ShiftKind.ofWord (shiftSelector sel s) = none) :
    exec i s = .next (refuseShift d s) := by
  obtain rfl | rfl := hi <;> simp only [exec, execShifti, execShiftr, shiftInPlace, h]

/-- With the refusal mark the end of a step changes nothing (R61). -/
theorem endStep_of_refused {s : State} (h : s.refused = true) : endStep s = s := if_pos h

/-- Settles O40: the refusal writes x[d], takes a free value and sets the mark, and a marked state takes no step. -/
theorem unknownShiftKindIsRefused : Obligations.UnknownShiftKindIsRefused := by
  intro i d s1 imm sel s hi hkind
  refine ⟨_, exec_shift_of_unknown hi hkind, rfl, fun r hr => ?regs, keepsMemory_of_eq rfl rfl, rfl,
    by simp [KeepsControl], fun hrunning => ?noStep⟩
  case regs => exact State.readReg_writeReg_ne s (List.ne_of_not_mem_cons hr) _
  case noStep =>
    rw [endStep_of_refused (refuseShift_refused s d)]
    exact step_of_refused hrunning rfl

end Machine

end Sys2Proof

/-! The other conditional operations and the pseudo-instructions (spec/43_conditional.md, spec/30_encoding.md R67). -/

namespace Sys2Proof.Machine

/-- The evaluator answers true exactly when the condition says so of the flags: an invalid code never does. -/
theorem condEval_holds_iff (c : Cond) (s : State) : (condEval c s).1 = true ↔ condTest c s.flags = some true := by
  unfold condEval
  cases condTest c s.flags <;> simp

/-- Settles O25: what each of the sixteen codes says of four false flags. -/
theorem conditionsAreFixedWhileFlagsAreFalse : Obligations.ConditionsAreFixedWhileFlagsAreFalse := by
  intro s c hflags
  rw [condEval_holds_iff, hflags]
  cases c <;> simp [condTest]

/-- The three answers of the evaluator, and what a conditional update does on each. -/
theorem conditionally_outcomes (f : Word → Word → Word) (c : Cond) (d s1 : Reg) (s : State)
    {o : Host.Outcome State Fault Refusal} (ho : o = .next (conditionally f c d s1 s)) :
    ((condEval c s).1 = true → ∃ t, o = .next t ∧
      t.readReg d = f (s.readReg d) (s.readReg s1) ∧ t.flags = s.flags ∧ KeepsAllBut [d] s t) ∧
    ((condEval c s).1 = false → ¬ InvalidCode c → o = .next s) ∧
    (InvalidCode c → o = .next { s with fault := true }) := by
  subst ho
  refine ⟨fun hholds => ⟨_, congrArg Host.Outcome.next (conditionally_of_holds f d s1 hholds), ?_⟩,
    fun hfails hvalid => congrArg Host.Outcome.next (conditionally_of_fails f d s1 hfails hvalid),
    fun hinvalid => congrArg Host.Outcome.next (conditionally_of_invalid f d s1 s hinvalid)⟩
  exact ⟨State.readReg_writeReg_same .., State.writeReg_flags .., keepsAllBut_writeReg ..⟩

/-- Settles O53: CSUB is the conditional update by the difference. -/
theorem csubSubtractsWhenTheConditionHolds : Obligations.CsubSubtractsWhenTheConditionHolds := fun d s1 c s =>
  ⟨encodeC_toNat c s1 d 9, conditionally_outcomes (· - ·) c d s1 s rfl⟩

/-- Settles O54: CAND is the conditional update by the bitwise and. -/
theorem candMasksWhenTheConditionHolds : Obligations.CandMasksWhenTheConditionHolds := fun d s1 c s =>
  ⟨encodeC_toNat c s1 d 10, conditionally_outcomes (· &&& ·) c d s1 s rfl⟩

/-- Settles O55: COR is the conditional update by the bitwise or. -/
theorem corMergesWhenTheConditionHolds : Obligations.CorMergesWhenTheConditionHolds := fun d s1 c s =>
  ⟨encodeC_toNat c s1 d 11, conditionally_outcomes (· ||| ·) c d s1 s rfl⟩

/-- Settles O56: CXOR is the conditional update by the bitwise exclusive or. -/
theorem cxorTogglesWhenTheConditionHolds : Obligations.CxorTogglesWhenTheConditionHolds := fun d s1 c s =>
  ⟨encodeC_toNat c s1 d 12, conditionally_outcomes (· ^^^ ·) c d s1 s rfl⟩

/-! Pseudo-instructions. -/

/-- `OR rd, rs, rs` copies the register. -/
theorem exec_or_self (d r : Reg) (s : State) : exec (.or d r r) s = .next (s.writeReg d (s.readReg r)) := by
  simp only [exec, execOr, BitVec.or_self]

/-- `XOR rd, rs, rs` clears the destination. -/
theorem exec_xor_self (d r : Reg) (s : State) : exec (.xor d r r) s = .next (s.writeReg d 0) := by
  simp only [exec, execXor, BitVec.xor_self]
  rfl

/-- A sum with FLAG_MODE `none` is one register write. -/
theorem exec_add_of_none {s : State} (hmode : s.cfg.flagMode = .none) (d s1 s2 : Reg) :
    exec (.add d s1 s2) s = .next (s.writeReg d (s.readReg s1 + s.readReg s2)) := by
  simp only [exec, execAdd, State.updateFlags, State.writeReg_cfg, hmode]

/-- With SHIFT_SELECT `instruction` the selector field of SHIFTI names the kind. -/
theorem exec_shifti_of_instruction {s : State} (hmode : s.cfg.shiftSelect = .instruction) {sel : BitVec 2}
    {kind : ShiftKind} (hkind : ShiftKind.ofWord (sel.setWidth 32) = some kind) (d : Reg) (imm : BitVec 5) :
    exec (.shifti d imm sel) s = .next (s.writeReg d (shiftBy s.cfg.sarFill kind (s.readReg d) imm.toNat)) := by
  rw [← shiftSelector_instruction hmode] at hkind
  exact congrArg Host.Outcome.next (shiftInPlace_of_kind hkind d imm.toNat)

/-- Settles O58: each expansion is one register write. -/
theorem pseudoInstructionsHaveTheirEffects : Obligations.PseudoInstructionsHaveTheirEffects := fun d r _ a s =>
  ⟨exec_rsv 0 s, exec_or_self d r s, exec_xor_self d d s, exec_or_self d 0 s, exec_or_self 0 r s,
    fun hmode => exec_add_of_none hmode 0 0 r,
    fun hholds => congrArg Host.Outcome.next (conditionally_of_holds (· + ·) 0 r hholds),
    fun hmode => ⟨exec_shifti_of_instruction hmode (sel := 0) (kind := .left) rfl d a,
      exec_shifti_of_instruction hmode (sel := 1) (kind := .logicalRight) rfl d a,
      exec_shifti_of_instruction hmode (sel := 2) (kind := .arithmeticRight) rfl d a⟩⟩

end Sys2Proof.Machine
